-- ==== Sys2Proof/Word.lean ====
section
/-! DEFINITION. The word types of the block (00_scope.md R9): an operation word, STAT, RESULT and a PULSE entry are
32 bits; a frame byte and PACC are 8 bits. Bit 0 is the least significant bit (R15). -/

namespace Sys2Proof

/-- A 32-bit value: an operation word, STAT, RESULT, or a PULSE entry (two's complement, 20_memory.md R44). -/
abbrev Word := BitVec 32

/-- An 8-bit value: a frame byte, PACC, or a byte operand. -/
abbrev Byte := BitVec 8

end Sys2Proof
end

