-- ==== Sys2Proof/Syntax.lean ====
section
/-! DEFINITION. The operations of the block, one constructor per row of spec/opcode_table.json, with every field of the
seven formats (30_encoding.md R61, R70). The reserved bits of a format are fields too: a word with a legal OP and a
reserved bit set still decodes to its operation, which then raises RSVD (R70, R73; notes/assumptions/10.md). -/

namespace Sys2Proof

/-- PWR_SEL, the power selection (30_encoding.md R62). -/
inductive PwrSel where
  /-- 0b00: neither on nor off given. -/
  | neither
  /-- 0b01: off. -/
  | off
  /-- 0b10: on. -/
  | on
  /-- 0b11: both on and off given. -/
  | both
deriving DecidableEq, Repr

/-- FAN_SEL, the fan selection (30_encoding.md R63). -/
inductive FanSel where
  /-- 0b000: none given. -/
  | notGiven
  /-- 0b001: auto. -/
  | auto
  /-- 0b010: speed 1 (Low). -/
  | speed1
  /-- 0b011: speed 2 (Medium). -/
  | speed2
  /-- 0b100: speed 3 (High). -/
  | speed3
  /-- 0b101, an unrecognized selection. -/
  | unrecognized5
  /-- 0b110, an unrecognized selection. -/
  | unrecognized6
  /-- 0b111, an unrecognized selection. -/
  | unrecognized7
deriving DecidableEq, Repr

/-- The fields of format C (30_encoding.md R61), the command of the source's §3 in one operation word. -/
structure Command where
  /-- Bits 27:26. -/
  pwr : PwrSel
  /-- Bit 25: ion mode requested (R65). -/
  ion : Bool
  /-- Bits 24:22. -/
  fan : FanSel
  /-- Bit 21, TEMP_V: a temperature was given (R64). -/
  tempV : Bool
  /-- Bits 20:8, reserved. -/
  rsvd : BitVec 13
  /-- Bits 7:0, TEMP, read as two's complement (R64). -/
  temp : Byte
deriving DecidableEq, Repr

/-- The fourteen operations (30_encoding.md R70). A field named `rsvd` holds the reserved bits of its format. -/
inductive Instr where
  /-- OP 0x1, format R: reverse the low K bits of N (40_bit_reverser.md R101). -/
  | rev (rsvd : BitVec 16) (k : BitVec 4) (n : Byte)
  /-- OP 0x2, format C: encode a temperature (41_field_encoder.md R112). -/
  | enct (c : Command)
  /-- OP 0x3, format C: encode a fan selection (41_field_encoder.md R115). -/
  | encf (c : Command)
  /-- OP 0x4, format C: encode a power state (41_field_encoder.md R118). -/
  | encp (c : Command)
  /-- OP 0x5, format C: encode the ion mode (41_field_encoder.md R121). -/
  | enci (c : Command)
  /-- OP 0x6, format N: clear the parity accumulator (42_parity_nibble_folder.md R132). -/
  | pclr (rsvd : BitVec 28)
  /-- OP 0x7, format B: fold one byte into the accumulator (42_parity_nibble_folder.md R133). -/
  | pxor (rsvd : BitVec 20) (b : Byte)
  /-- OP 0x8, format N: fold the accumulator's nibbles (42_parity_nibble_folder.md R134). -/
  | pfold (rsvd : BitVec 28)
  /-- OP 0x9, format C: assemble a frame from a command (43_frame_assembler.md R145). -/
  | build (c : Command)
  /-- OP 0xA, format N: encode FRAME into PULSE (44_ir_pulse_sequence_generator.md R164). -/
  | encode (rsvd : BitVec 28)
  /-- OP 0xB, format C: build a frame and encode it (44_ir_pulse_sequence_generator.md R165). -/
  | send (c : Command)
  /-- OP 0xC, format W: write one frame byte (45_host_access.md R180). -/
  | fwr (rsvd : BitVec 16) (idx : BitVec 4) (b : Byte)
  /-- OP 0xD, format I4: read one frame byte (45_host_access.md R181). -/
  | frd (rsvd : BitVec 16) (idx : BitVec 4) (rsvdLow : BitVec 8)
  /-- OP 0xE, format I8: read one pulse entry (45_host_access.md R182). -/
  | prd (rsvd : BitVec 20) (pidx : BitVec 8)
deriving DecidableEq, Repr

end Sys2Proof
end

