-- ==== Sys2Proof/WellFormed.lean ====
section
/-! DEFINITION. When an operation is well formed: the reserved bits of its format are 0, as the formats of
30_encoding.md R61 ask ("must be 0"). Every value of every other field is a legal encoding (R74). An ill-formed
operation is still performed: it raises RSVD (R73). -/

namespace Sys2Proof

/-- The reserved bits of format C are 0. -/
def Command.WellFormed (c : Command) : Bool := c.rsvd == 0

/-- The reserved bits of the operation's format are all 0 (30_encoding.md R61, R71). -/
def Instr.WellFormed : Instr → Bool
  | .rev rsvd _ _ => rsvd == 0
  | .enct c => c.WellFormed
  | .encf c => c.WellFormed
  | .encp c => c.WellFormed
  | .enci c => c.WellFormed
  | .pclr rsvd => rsvd == 0
  | .pxor rsvd _ => rsvd == 0
  | .pfold rsvd => rsvd == 0
  | .build c => c.WellFormed
  | .encode rsvd => rsvd == 0
  | .send c => c.WellFormed
  | .fwr rsvd _ _ => rsvd == 0
  | .frd rsvd _ rsvdLow => rsvd == 0 && rsvdLow == 0
  | .prd rsvd _ => rsvd == 0

end Sys2Proof
end

