-- ==== Sys2Proof/Decode.lean ====
section
/-! DEFINITION. Decoding an operation word (30_encoding.md R60 to R75), and after it the encoder, the reserved-bit masks
of R71 and the assembler's lines of R76. Decoding is total: a word is one of the fourteen operations or is rejected by
name. -/

namespace Sys2Proof

/-- Why a word is no operation. -/
inductive DecodeError where
  /-- OP is 0x0 or 0xF (30_encoding.md R72). -/
  | illegalOp
deriving DecidableEq, Repr

/-! ### Fields -/

/-- `w[hi:lo]` as a field of `len = hi - lo + 1` bits (00_scope.md R15). -/
def field (w : Word) (lo len : Nat) : BitVec len := w.extractLsb' lo len

/-- OP, bits 31:28 of every word (30_encoding.md R61). -/
def opField (w : Word) : BitVec 4 := field w 28 4

/-- PWR_SEL's two bits as a selection (30_encoding.md R62). -/
def PwrSel.ofBits (b : BitVec 2) : PwrSel :=
  match b.toNat with
  | 0 => .neither
  | 1 => .off
  | 2 => .on
  | _ => .both

/-- The two bits of a power selection (30_encoding.md R62). -/
def PwrSel.bits : PwrSel → BitVec 2
  | .neither => 0b00#2
  | .off => 0b01#2
  | .on => 0b10#2
  | .both => 0b11#2

/-- FAN_SEL's three bits as a selection (30_encoding.md R63). -/
def FanSel.ofBits (b : BitVec 3) : FanSel :=
  match b.toNat with
  | 0 => .notGiven
  | 1 => .auto
  | 2 => .speed1
  | 3 => .speed2
  | 4 => .speed3
  | 5 => .unrecognized5
  | 6 => .unrecognized6
  | _ => .unrecognized7

/-- The three bits of a fan selection (30_encoding.md R63). -/
def FanSel.bits : FanSel → BitVec 3
  | .notGiven => 0b000#3
  | .auto => 0b001#3
  | .speed1 => 0b010#3
  | .speed2 => 0b011#3
  | .speed3 => 0b100#3
  | .unrecognized5 => 0b101#3
  | .unrecognized6 => 0b110#3
  | .unrecognized7 => 0b111#3

/-- The fields of a format C word (30_encoding.md R61). -/
def commandOf (w : Word) : Command where
  pwr := PwrSel.ofBits (field w 26 2)
  ion := w.getLsbD 25
  fan := FanSel.ofBits (field w 22 3)
  tempV := w.getLsbD 21
  rsvd := field w 8 13
  temp := field w 0 8

/-! ### Decoding -/

/-- The operation a word spells, or the reason it spells none (30_encoding.md R70, R75). -/
def decode (w : Word) : Except DecodeError Instr :=
  match (opField w).toNat with
  | 0x1 => .ok (.rev (field w 12 16) (field w 8 4) (field w 0 8))
  | 0x2 => .ok (.enct (commandOf w))
  | 0x3 => .ok (.encf (commandOf w))
  | 0x4 => .ok (.encp (commandOf w))
  | 0x5 => .ok (.enci (commandOf w))
  | 0x6 => .ok (.pclr (field w 0 28))
  | 0x7 => .ok (.pxor (field w 8 20) (field w 0 8))
  | 0x8 => .ok (.pfold (field w 0 28))
  | 0x9 => .ok (.build (commandOf w))
  | 0xA => .ok (.encode (field w 0 28))
  | 0xB => .ok (.send (commandOf w))
  | 0xC => .ok (.fwr (field w 12 16) (field w 8 4) (field w 0 8))
  | 0xD => .ok (.frd (field w 12 16) (field w 8 4) (field w 0 8))
  | 0xE => .ok (.prd (field w 8 20) (field w 0 8))
  | _ => .error .illegalOp

/-! ### Encoding -/

/-- OP of an operation (30_encoding.md R70). -/
def opcodeOf : Instr → BitVec 4
  | .rev _ _ _ => 0x1#4
  | .enct _ => 0x2#4
  | .encf _ => 0x3#4
  | .encp _ => 0x4#4
  | .enci _ => 0x5#4
  | .pclr _ => 0x6#4
  | .pxor _ _ => 0x7#4
  | .pfold _ => 0x8#4
  | .build _ => 0x9#4
  | .encode _ => 0xA#4
  | .send _ => 0xB#4
  | .fwr _ _ _ => 0xC#4
  | .frd _ _ _ => 0xD#4
  | .prd _ _ => 0xE#4

/-- Bits 27:0 of a format C word, most significant field first (30_encoding.md R61). -/
def commandBits (c : Command) : BitVec 28 :=
  c.pwr.bits ++ BitVec.ofBool c.ion ++ c.fan.bits ++ BitVec.ofBool c.tempV ++ c.rsvd ++ c.temp

/-- Bits 27:0 of an operation's word, most significant field first (30_encoding.md R61). -/
def operandBits : Instr → BitVec 28
  | .rev rsvd k n => rsvd ++ k ++ n
  | .enct c => commandBits c
  | .encf c => commandBits c
  | .encp c => commandBits c
  | .enci c => commandBits c
  | .pclr rsvd => rsvd
  | .pxor rsvd b => rsvd ++ b
  | .pfold rsvd => rsvd
  | .build c => commandBits c
  | .encode rsvd => rsvd
  | .send c => commandBits c
  | .fwr rsvd idx b => rsvd ++ idx ++ b
  | .frd rsvd idx rsvdLow => rsvd ++ idx ++ rsvdLow
  | .prd rsvd pidx => rsvd ++ pidx

/-- The word of an operation: OP at bits 31:28, the operands below (30_encoding.md R61, R70). -/
def encode (i : Instr) : Word := opcodeOf i ++ operandBits i

/-! ### Formats and reserved bits -/

/-- The seven formats (30_encoding.md R61). -/
inductive Format where
  | C
  | R
  | N
  | B
  | W
  | I4
  | I8
deriving DecidableEq, Repr

/-- RSVD_MASK of a format (30_encoding.md R71). -/
def rsvdMask : Format → Word
  | .C => 0x001FFF00
  | .R => 0x0FFFF000
  | .N => 0x0FFFFFFF
  | .B => 0x0FFFFF00
  | .W => 0x0FFFF000
  | .I4 => 0x0FFFF0FF
  | .I8 => 0x0FFFFF00

/-- FORMAT(op) of the opcode map; the two illegal codes have none (30_encoding.md R70). -/
def formatOf (op : BitVec 4) : Option Format :=
  match op.toNat with
  | 0x1 => some .R
  | 0x2 => some .C
  | 0x3 => some .C
  | 0x4 => some .C
  | 0x5 => some .C
  | 0x6 => some .N
  | 0x7 => some .B
  | 0x8 => some .N
  | 0x9 => some .C
  | 0xA => some .N
  | 0xB => some .C
  | 0xC => some .W
  | 0xD => some .I4
  | 0xE => some .I8
  | _ => none

/-! ### The opcode table's words -/

/-- The operation word whose bits are `w`, of which `nbits` are given and the rest are 0. No byte order applies to an
operation word (20_memory.md R46). -/
def tableWord (nbits w : Nat) : Word := BitVec.ofNat 32 (w % 2 ^ nbits)

/-- The operation the decoder reads from a word of spec/opcode_table.json. -/
def decodeTableWord (nbits w : Nat) : Option Instr :=
  match decode (tableWord nbits w) with
  | .ok i => some i
  | .error _ => none

/-! ### Assembler lines (30_encoding.md R76, R77) -/

/-- One line of assembly: a mnemonic with its operands (30_encoding.md R76). The operand `temp` is `none` for the
spelling `-`. The line's text is not modelled (notes/assumptions/18.md). -/
inductive AsmLine where
  | rev (k n : Nat)
  | enct (t : Int)
  | encf (fan : FanSel)
  | encp (pwr : PwrSel)
  | enci (ion : Bool)
  | pclr
  | pxor (b : Nat)
  | pfold
  | build (pwr : PwrSel) (temp : Option Int) (fan : FanSel) (ion : Bool)
  | encode
  | send (pwr : PwrSel) (temp : Option Int) (fan : FanSel) (ion : Bool)
  | fwr (idx b : Nat)
  | frd (idx : Nat)
  | prd (pidx : Nat)
deriving DecidableEq, Repr

/-- The spelling of a power operand (30_encoding.md R76). -/
def PwrSel.spelling : PwrSel → String
  | .neither => "none"
  | .off => "off"
  | .on => "on"
  | .both => "both"

/-- The spelling of a fan operand (30_encoding.md R76). -/
def FanSel.spelling : FanSel → String
  | .notGiven => "none"
  | .auto => "auto"
  | .speed1 => "1"
  | .speed2 => "2"
  | .speed3 => "3"
  | .unrecognized5 => "u5"
  | .unrecognized6 => "u6"
  | .unrecognized7 => "u7"

/-- The spelling of an ion operand (30_encoding.md R76). -/
def ionSpelling (ion : Bool) : String := if ion then "ion" else "noion"

/-- A format C command with every field 0 (30_encoding.md R76, "other format C fields 0"). -/
def zeroCommand : Command :=
  { pwr := .neither, ion := false, fan := .notGiven, tempV := false, rsvd := 0, temp := 0 }

/-- An unsigned operand of `len` bits, where it fits. -/
def asmUnsigned (len n : Nat) : Option (BitVec len) :=
  if n < 2 ^ len then some (BitVec.ofNat len n) else none

/-- A temperature operand, "an integer from -128 to 127", as its low 8 bits (30_encoding.md R76). -/
def asmTemperature (t : Int) : Option Byte :=
  if -128 ≤ t ∧ t ≤ 127 then some (BitVec.ofInt 8 t) else none

/-- The command of a BUILD or SEND line: `-` is TEMP_V = 0 and TEMP = 0 (30_encoding.md R76). -/
def asmCommand (pwr : PwrSel) (temp : Option Int) (fan : FanSel) (ion : Bool) : Option Command :=
  match temp with
  | none => some { zeroCommand with pwr := pwr, fan := fan, ion := ion }
  | some t => (asmTemperature t).map fun b =>
      { zeroCommand with pwr := pwr, fan := fan, ion := ion, tempV := true, temp := b }

/-- The operation a line spells; `none` where an operand is outside its range (30_encoding.md R76). -/
def assemble : AsmLine → Option Instr
  | .rev k n =>
      match asmUnsigned 4 k, asmUnsigned 8 n with
      | some k, some n => some (.rev 0 k n)
      | _, _ => none
  | .enct t => (asmTemperature t).map fun b => .enct { zeroCommand with temp := b }
  | .encf fan => some (.encf { zeroCommand with fan := fan })
  | .encp pwr => some (.encp { zeroCommand with pwr := pwr })
  | .enci ion => some (.enci { zeroCommand with ion := ion })
  | .pclr => some (.pclr 0)
  | .pxor b => (asmUnsigned 8 b).map fun b => .pxor 0 b
  | .pfold => some (.pfold 0)
  | .build pwr temp fan ion => (asmCommand pwr temp fan ion).map .build
  | .encode => some (.encode 0)
  | .send pwr temp fan ion => (asmCommand pwr temp fan ion).map .send
  | .fwr idx b =>
      match asmUnsigned 4 idx, asmUnsigned 8 b with
      | some idx, some b => some (.fwr 0 idx b)
      | _, _ => none
  | .frd idx => (asmUnsigned 4 idx).map fun idx => .frd 0 idx 0
  | .prd pidx => (asmUnsigned 8 pidx).map fun pidx => .prd 0 pidx

end Sys2Proof
end

