-- ==== Sys2Proof/Config.lean ====
section
/-! DEFINITION. The implementation parameters (00_scope.md R10 to R14) and the model's one free value. The parameters
are fixed when the block is instantiated; State carries them so that one model covers every configuration
(notes/assumptions/1.md). -/

namespace Sys2Proof

/-- The byte order of a packed pulse entry (00_scope.md R13). -/
inductive Endian where
  | little
  | big
deriving DecidableEq, Repr

/-- The four parameters, each with the spec's default (00_scope.md R10 to R13). -/
structure Config where
  /-- TPL4, the template value of frame byte 4 (R10). -/
  tpl4 : Byte := 0x00
  /-- TPL6, the template value of frame byte 6; bit 7 must be 1 (R11). -/
  tpl6 : Byte := 0x80
  /-- SENTINEL_EN: the temperature operand 10 is accepted (R12). -/
  sentinelEn : Bool := true
  /-- SINK_ENDIAN, the byte order of each packed entry (R13). -/
  sinkEndian : Endian := .little
deriving DecidableEq, Repr

/-- Every parameter at the spec's default. -/
def Config.default : Config := {}

/-- "A configuration with TPL6[7] = 0 is not admitted, and a model refuses it" (00_scope.md R11). -/
def Config.admitted (cfg : Config) : Bool := cfg.tpl6.getLsbD 7

/-- FREE VALUE (93_implementation_defined.md U8; notes/assumptions/6.md). Whether the operation that the n-th cutting
reset interrupts completes before the reset (true) or has no effect at all (false): 70_reset_and_hazards.md R241 admits
both. It has no body, so nothing can be proved of its value. -/
opaque Config.cutCompletes : Nat → Bool

end Sys2Proof
end

