-- ==== Sys2Proof/Machine/State.lean ====
section
/-! DEFINITION. The state of the block (10_state.md R20 to R34), the host's side of the port, the reasons a step can
stop, and the machine right after reset. State is plain data. -/

namespace Sys2Proof.Machine

/-- Why the machine stops with a fault. No constructor: the spec gives the block no behaviour that stops it. An error is
a response, after which "the next operation word is performed normally" (60_exceptions.md R205, R207), and the meanings
take it as a next state. -/
inductive Fault where
deriving DecidableEq, Repr

/-- Why a step has no meaning. -/
inductive Refusal where
  /-- Raised by an arm of `exec` whose operation is not modelled. No arm is. Safe: the run stops. -/
  | notModelled (mnemonic : String)
  /-- Raised by `step` in a configuration with TPL6[7] = 0, which "a model refuses" (00_scope.md R11). Safe: the run
  stops, and the spec admits no such block. -/
  | configNotAdmitted
  /-- Raised by `step` when the host presents a word before the previous response, which is "outside the model"
  (70_reset_and_hazards.md R253; 93_implementation_defined.md U20, treatment refuse). Safe: the run stops. -/
  | wordBeforeResponse
deriving DecidableEq, Repr

/-- The errors of 60_exceptions.md R200, without its NONE, which is no error. -/
inductive Cause where
  /-- 0x1: neither on nor off was given. -/
  | pwrMissing
  /-- 0x2: both on and off were given. -/
  | pwrConflict
  /-- 0x3: on, and no temperature was given. -/
  | tempMissing
  /-- 0x4: the temperature is outside 18..32 and is not the enabled sentinel. -/
  | tempRange
  /-- 0x5: no fan selection was given where one is needed. -/
  | fanMissing
  /-- 0x6: the fan selection is not recognized. -/
  | fanUnrecognized
  /-- 0x7: the input of encodePulses is not 13 bytes; never reported (44_ir_pulse_sequence_generator.md R166). -/
  | frameLength
  /-- 0x8: K is above 8. -/
  | revWidth
  /-- 0x9: a frame index above 12 or a pulse index above 210. -/
  | indexRange
  /-- 0xA: a read of a frame byte or of the pulse buffer that holds no value. -/
  | unwritten
  /-- 0xB: a reserved bit is 1. -/
  | rsvd
  /-- 0xC: the word spells no operation. -/
  | illegalOp
deriving DecidableEq, Repr

/-- One address space: its (index, value) pairs, indices strictly rising, an index not listed holding no value
(20_memory.md R40; 10_state.md R29, R31; notes/assumptions/5.md). `Memory Byte` is a list of `Host.Cell`. -/
abbrev Memory (α : Type) := List (Nat × α)

/-- One response: STAT and RESULT after the operation (00_scope.md R3; 10_state.md R22, R26). -/
structure Response where
  stat : Word
  result : Word
deriving DecidableEq, Repr

/-- One thing the host does at the block's port. -/
inductive HostAction where
  /-- It presents an operation word, after the previous response (00_scope.md R3). -/
  | word (w : Word)
  /-- It asserts reset between operations (70_reset_and_hazards.md R240). -/
  | reset
  /-- It asserts reset while the block performs `w` (70_reset_and_hazards.md R241). -/
  | resetDuring (w : Word)
  /-- It presents `w` before the previous response (70_reset_and_hazards.md R253): outside the model. -/
  | earlyWord (w : Word)
deriving DecidableEq, Repr

/-- The block, and the host's side of its port. STAT's validity bits FV and PV are computed from `frame` and `pulse`
(notes/assumptions/4.md). -/
structure State where
  /-- The parameters. Configuration, not state (10_state.md R20); no step changes them (notes/assumptions/1.md). -/
  cfg : Config
  /-- STAT.ERR (10_state.md R22). -/
  err : Bool
  /-- STAT.CAUSE (10_state.md R22). -/
  cause : BitVec 4
  /-- STAT.SERR (10_state.md R24). -/
  serr : Bool
  /-- RESULT (10_state.md R26). -/
  result : Word
  /-- PACC, the parity accumulator (10_state.md R27). -/
  pacc : Byte
  /-- FRAME[0..12] (10_state.md R28, R29). -/
  frame : Memory Byte
  /-- PULSE[0..210] (10_state.md R30, R31). -/
  pulse : Memory Word
  /-- The MODEL'S OWN: what the host will do, in order (notes/assumptions/2.md). -/
  inbox : List HostAction
  /-- The MODEL'S OWN: the responses given so far, oldest first (notes/assumptions/3.md). -/
  responses : List Response
  /-- The MODEL'S OWN: the index of the next free value of R241 (notes/assumptions/6.md). -/
  cuts : Nat
deriving DecidableEq, Repr

/-- The machine right after reset (10_state.md R34; 70_reset_and_hazards.md R240), with the default parameters and a
host that does nothing. -/
def State.reset : State where
  cfg := Config.default
  err := false
  cause := 0
  serr := false
  result := 0
  pacc := 0
  frame := []
  pulse := []
  inbox := []
  responses := []
  cuts := 0

end Sys2Proof.Machine
end

