-- ==== Sys2Proof/Machine/Memory.lean ====
section
/-! DEFINITION. Reading and writing an address space (20_memory.md R40, R46, R49; 00_scope.md R16), and the canonical
form its list keeps. -/

namespace Sys2Proof.Machine

/-- The value at an index; none where the location holds no value (10_state.md R29, R31). -/
def Memory.read {α : Type} : Memory α → Nat → Option α
  | [], _ => none
  | (b, v) :: rest, a => if b = a then some v else Memory.read rest a

/-- The space with `v` at index `a`. -/
def Memory.write {α : Type} : Memory α → Nat → α → Memory α
  | [], a, v => [(a, v)]
  | (b, u) :: rest, a, v =>
      if a < b then (a, v) :: (b, u) :: rest
      else if a = b then (a, v) :: rest
      else (b, u) :: Memory.write rest a v

/-- The space that holds the values of a sequence at indices `a`, `a + 1`, … and nothing else. -/
def Memory.ofList {α : Type} (a : Nat) : List α → Memory α
  | [] => []
  | v :: vs => (a, v) :: Memory.ofList (a + 1) vs

/-- The values at the `n` indices from `a` on, or none where one of them holds no value. -/
def Memory.readFrom {α : Type} (m : Memory α) (a : Nat) : Nat → Option (List α)
  | 0 => some []
  | n + 1 =>
      match Memory.read m a, Memory.readFrom m (a + 1) n with
      | some v, some vs => some (v :: vs)
      | _, _ => none

/-- The indices rise strictly from `lo` on and stay below `size`. -/
def Memory.wfFrom {α : Type} (lo size : Nat) : Memory α → Bool
  | [] => true
  | (a, _) :: rest => decide (lo ≤ a) && decide (a < size) && Memory.wfFrom (a + 1) size rest

/-- The canonical form of a space of `size` locations: indices strictly rising, each mapped (20_memory.md R50). -/
def Memory.wf {α : Type} (size : Nat) (m : Memory α) : Bool := Memory.wfFrom 0 size m

/-- The list is exactly the indices from `a` to `size - 1`, in order. -/
def Memory.fullFrom {α : Type} (size : Nat) : Nat → Memory α → Bool
  | a, [] => a == size
  | a, (b, _) :: rest => a == b && Memory.fullFrom size (a + 1) rest

/-- Every one of the `size` locations holds a value. -/
def Memory.full {α : Type} (size : Nat) (m : Memory α) : Bool := Memory.fullFrom size 0 m

/-- FRAME_LEN: the frame is "exactly 13 bytes" (00_scope.md R8). -/
def frameLen : Nat := 13

/-- PULSE_LEN: the sequence is 211 entries (00_scope.md R8). -/
def pulseLen : Nat := 211

end Sys2Proof.Machine
end

