-- ==== Sys2Proof/Machine/Flags.lean ====
section
/-! DEFINITION. The status register STAT (10_state.md R22 to R25): the cause codes, the validity bits, and the 32-bit
word a response carries. The block has no other flags (R25). -/

namespace Sys2Proof.Machine

/-- The code of an error in STAT.CAUSE (60_exceptions.md R200). -/
def Cause.code : Cause → BitVec 4
  | .pwrMissing => 0x1#4
  | .pwrConflict => 0x2#4
  | .tempMissing => 0x3#4
  | .tempRange => 0x4#4
  | .fanMissing => 0x5#4
  | .fanUnrecognized => 0x6#4
  | .frameLength => 0x7#4
  | .revWidth => 0x8#4
  | .indexRange => 0x9#4
  | .unwritten => 0xA#4
  | .rsvd => 0xB#4
  | .illegalOp => 0xC#4

/-- The `n`-bit value whose bit `i` is `f i`. -/
def bitsOf (f : Nat → Bool) : (n : Nat) → BitVec n
  | 0 => 0#0
  | n + 1 => BitVec.cons (f n) (bitsOf f n)

/-- STAT.FV[i]: 1 when FRAME[i] holds a value (10_state.md R22, R29). -/
def frameValid (s : State) (i : Nat) : Bool := (s.frame.read i).isSome

/-- STAT.FV[12:0] (10_state.md R22). -/
def fv (s : State) : BitVec 13 := bitsOf (frameValid s) 13

/-- STAT.PV: 1 when PULSE[0..210] hold a value (10_state.md R22, R31). -/
def pv (s : State) : Bool := s.pulse.full pulseLen

/-- STAT, most significant field first: reserved [31:20] hardwired 0, SERR [19], FV [18:6], PV [5], CAUSE [4:1], ERR [0]
(10_state.md R22). -/
def stat (s : State) : Word :=
  0#12 ++ BitVec.ofBool s.serr ++ fv s ++ BitVec.ofBool (pv s) ++ s.cause ++ BitVec.ofBool s.err

end Sys2Proof.Machine
end

