-- ==== Sys2Proof/Machine/Ops.lean ====
section
/-! DEFINITION. The shared operations: the error response and the completion response, which every operation ends in
(60_exceptions.md R205, R206), the writes of the spaces, and reset (70_reset_and_hazards.md R240). An error saves
nothing and goes nowhere, and there is no return from one (R205, R207), so no return operation stands beside it. -/

namespace Sys2Proof.Machine

/-- What performing one operation answers. -/
abbrev Answer := Host.Outcome State Fault Refusal

/-- The error response of InvalidArgument(c) (60_exceptions.md R205; 10_state.md R23, R24, R26). -/
def raise (c : Cause) (s : State) : State :=
  { s with err := true, cause := c.code, serr := true, result := 0 }

/-- The completion response with value `r` (60_exceptions.md R206; 10_state.md R23, R26). -/
def complete (r : Word) (s : State) : State :=
  { s with err := false, cause := 0, result := r }

/-- The end of an operation: the error it raises, with nothing of its own written (60_exceptions.md R205), or the state
it writes and its RESULT (R206). -/
def answer (s : State) : Except Cause (State × Word) → Answer
  | .error c => .next (raise c s)
  | .ok (t, r) => .next (complete r t)

/-- `zext_32(v)` (00_scope.md R15). -/
def zext {w : Nat} (v : BitVec w) : Word := v.setWidth 32

/-- PACC <- v. -/
def writePacc (s : State) (v : Byte) : State := { s with pacc := v }

/-- `MemWrite(FRAME, i, 1, b)` and STAT.FV[i] <- 1 (00_scope.md R16, 45_host_access.md R180). -/
def writeFrameByte (s : State) (i : Nat) (b : Byte) : State := { s with frame := s.frame.write i b }

/-- `for i in 0..12: FRAME[i] <- F[i]; STAT.FV[i] <- 1` (43_frame_assembler.md R145; notes/assumptions/11.md). -/
def storeFrame (s : State) (F : List Byte) : State := { s with frame := Memory.ofList 0 F }

/-- `for j in 0..210: PULSE[j] <- S[j]`, 32-bit signed, and STAT.PV <- 1 (44_ir_pulse_sequence_generator.md R164;
notes/assumptions/11.md). -/
def storePulse (s : State) (S : List Nat) : State :=
  { s with pulse := Memory.ofList 0 (S.map (BitVec.ofNat 32)) }

/-- Reset: every piece of the block's state at its value of 10_state.md R34 (70_reset_and_hazards.md R240). The
parameters are not state and stay (R242); what the host has seen and will do is the host's (notes/assumptions/17.md). -/
def resetBlock (s : State) : State :=
  { State.reset with cfg := s.cfg, inbox := s.inbox, responses := s.responses, cuts := s.cuts }

end Sys2Proof.Machine
end

