-- ==== Sys2Proof/Machine/Operands.lean ====
section
/-! DEFINITION. The checks and operand forms the operations share: reserved bits (30_encoding.md R73), power selection
(R62), supplied temperature (R64), and the counts and indices of formats R, W, I4 and I8 (R66, R74). -/

namespace Sys2Proof.Machine

/-- `if (w & RSVD_MASK) != 0: raise InvalidArgument(RSVD)` on the reserved bits of a format (30_encoding.md R73). -/
def checkReserved {n : Nat} (rsvd : BitVec n) : Except Cause Unit :=
  if rsvd = 0 then .ok () else .error .rsvd

/-- PWR_SEL as the source's power: true is on; neither and both are errors (30_encoding.md R62). -/
def powerOperand : PwrSel → Except Cause Bool
  | .neither => .error .pwrMissing
  | .both => .error .pwrConflict
  | .off => .ok false
  | .on => .ok true

/-- `t = sint(TEMP)` (30_encoding.md R64, R66). -/
def temperatureOperand (c : Command) : Int := c.temp.toInt

/-- `if power and tv = 0: raise InvalidArgument(TEMP_MISSING)` (43_frame_assembler.md R145). -/
def checkTemperatureGiven (power tempV : Bool) : Except Cause Unit :=
  if power && !tempV then .error .tempMissing else .ok ()

/-- The bit count K of REV, 0 to 8 (40_bit_reverser.md R101). -/
def countOperand (k : BitVec 4) : Except Cause Nat :=
  if k.toNat > 8 then .error .revWidth else .ok k.toNat

/-- A frame index, 0 to 12 (45_host_access.md R180, R181). -/
def frameIndexOperand (idx : BitVec 4) : Except Cause Nat :=
  if idx.toNat > 12 then .error .indexRange else .ok idx.toNat

/-- A pulse index, 0 to 210 (45_host_access.md R182). -/
def pulseIndexOperand (pidx : BitVec 8) : Except Cause Nat :=
  if pidx.toNat > 210 then .error .indexRange else .ok pidx.toNat

/-- The value read from a location, or UNWRITTEN where it holds none (10_state.md R29, R31). -/
def valueOrUnwritten {α : Type} : Option α → Except Cause α
  | some v => .ok v
  | none => .error .unwritten

/-- `MemRead(PULSE, j, 4)` once STAT.PV = 1; UNWRITTEN while STAT.PV = 0 (10_state.md R31, 45_host_access.md R182). -/
def readPulse (s : State) (j : Nat) : Except Cause Word :=
  if pv s then valueOrUnwritten (s.pulse.read j) else .error .unwritten

end Sys2Proof.Machine
end

