-- ==== Sys2Proof/Machine/HostAccess.lean ====
section
/-! DEFINITION. Host access to the frame and pulse spaces: FWR, FRD, PRD (45_host_access.md R180 to R183). -/

namespace Sys2Proof.Machine

/-- FWR (45_host_access.md R180). -/
def execFwr (rsvd : BitVec 16) (idx : BitVec 4) (b : Byte) (s : State) : Answer :=
  answer s do
    checkReserved rsvd
    let i ← frameIndexOperand idx
    pure (writeFrameByte s i b, 0)

/-- FRD; format I4 has reserved bits above and below IDX (45_host_access.md R181). -/
def execFrd (rsvd : BitVec 16) (idx : BitVec 4) (rsvdLow : BitVec 8) (s : State) : Answer :=
  answer s do
    checkReserved (rsvd ++ rsvdLow)
    let i ← frameIndexOperand idx
    let b ← valueOrUnwritten (s.frame.read i)
    pure (s, zext b)

/-- PRD (45_host_access.md R182). -/
def execPrd (rsvd : BitVec 20) (pidx : BitVec 8) (s : State) : Answer :=
  answer s do
    checkReserved rsvd
    let j ← pulseIndexOperand pidx
    let v ← readPulse s j
    pure (s, v)

end Sys2Proof.Machine
end

