-- ==== Sys2Proof/Machine/BitReverser.lean ====
section
/-! DEFINITION. The bit_reverser unit: reverse(n, k) and REV (40_bit_reverser.md R100, R101). -/

namespace Sys2Proof.Machine

/-- `r[j] <- b` on a byte whose bit j is 0. -/
def setBit (r : Byte) (j : Nat) (b : Bool) : Byte := r ||| ((BitVec.ofBool b).setWidth 8 <<< j)

/-- `reverse(n, k)`: for i in 0 .. k-1, r[k-1-i] <- n[i] (40_bit_reverser.md R100). Bits of n at k and above are
ignored. -/
def reverse (n : Byte) (k : Nat) : Byte :=
  (List.range k).foldl (fun r i => setBit r (k - 1 - i) (n.getLsbD i)) 0

/-- REV (40_bit_reverser.md R101). -/
def execRev (rsvd : BitVec 16) (k : BitVec 4) (n : Byte) (s : State) : Answer :=
  answer s do
    checkReserved rsvd
    let count ← countOperand k
    pure (s, zext (reverse n count))

end Sys2Proof.Machine
end

