-- ==== Sys2Proof/Machine/FieldEncoder.lean ====
section
/-! DEFINITION. The field_encoder unit: encTemp, encFan, encPower, encIon and ENCT, ENCF, ENCP, ENCI
(41_field_encoder.md R110 to R121). Each operation ignores the fields of format C it does not use (30_encoding.md R67). -/

namespace Sys2Proof.Machine

/-- TEMP_BASE (00_scope.md R8). -/
def tempBase : Int := 17

/-- `reverse(te - 17, 4)`, a 4-bit code (41_field_encoder.md R110). -/
def tempCode (te : Int) : BitVec 4 := (reverse (BitVec.ofInt 8 (te - tempBase)) 4).setWidth 4

/-- `encTemp(t)`: the sentinel is a branch of its own, taken before the range check (41_field_encoder.md R110, R111;
90_conflicts.md C2). -/
def encTemp (cfg : Config) (t : Int) : Except Cause (BitVec 4) :=
  if cfg.sentinelEn = true ∧ t = 10 then .ok (tempCode 17)
  else if t < 18 ∨ t > 32 then .error .tempRange
  else .ok (tempCode t)

/-- FANCODE of a selection, or the error of one that has none (30_encoding.md R63, 41_field_encoder.md R114). -/
def fanCode : FanSel → Except Cause (BitVec 3)
  | .notGiven => .error .fanMissing
  | .auto => .ok 2#3
  | .speed1 => .ok 6#3
  | .speed2 => .ok 5#3
  | .speed3 => .ok 7#3
  | .unrecognized5 => .error .fanUnrecognized
  | .unrecognized6 => .error .fanUnrecognized
  | .unrecognized7 => .error .fanUnrecognized

/-- `encFan(sel) = (0x80 | (code << 1))[7:0]` (41_field_encoder.md R114). -/
def encFan (sel : FanSel) : Except Cause Byte :=
  (fanCode sel).map fun code => (0x80 : Byte) ||| ((code.setWidth 8 : Byte) <<< (1 : Nat))

/-- `encPower(on)`, the value of frame byte 5 (41_field_encoder.md R117). -/
def encPower (on : Bool) : Byte := if on then 0x88#8 else 0x84#8

/-- `encIon(ion)`, the value of frame byte 11 (41_field_encoder.md R120). -/
def encIon (ion : Bool) : Byte := if ion then 0x2F#8 else 0x0F#8

/-- ENCT (41_field_encoder.md R112). -/
def execEnct (c : Command) (s : State) : Answer :=
  answer s do
    checkReserved c.rsvd
    let code ← encTemp s.cfg (temperatureOperand c)
    pure (s, zext code)

/-- ENCF (41_field_encoder.md R115). -/
def execEncf (c : Command) (s : State) : Answer :=
  answer s do
    checkReserved c.rsvd
    let byte ← encFan c.fan
    pure (s, zext byte)

/-- ENCP (41_field_encoder.md R118). -/
def execEncp (c : Command) (s : State) : Answer :=
  answer s do
    checkReserved c.rsvd
    let power ← powerOperand c.pwr
    pure (s, zext (encPower power))

/-- ENCI (41_field_encoder.md R121). -/
def execEnci (c : Command) (s : State) : Answer :=
  answer s do
    checkReserved c.rsvd
    pure (s, zext (encIon c.ion))

end Sys2Proof.Machine
end

