-- ==== Sys2Proof/Machine/ParityFolder.lean ====
section
/-! DEFINITION. The parity_nibble_folder unit: parity(B) and PCLR, PXOR, PFOLD (42_parity_nibble_folder.md R130 to
R134). -/

namespace Sys2Proof.Machine

/-- The XOR of a byte sequence, from 0x00 (42_parity_nibble_folder.md R130). -/
def xorBytes (B : List Byte) : Byte := B.foldl (fun acc b => acc ^^^ b) 0x00#8

/-- The nibble fold `(acc & 0xF) ^ (acc >> 4)`, 4 bits (42_parity_nibble_folder.md R130). -/
def nibbleFold (acc : Byte) : BitVec 4 := ((acc &&& 0x0F#8) ^^^ (acc >>> 4)).setWidth 4

/-- `parity(B)` of a byte sequence of any length (42_parity_nibble_folder.md R130). -/
def parity (B : List Byte) : BitVec 4 := nibbleFold (xorBytes B)

/-- PCLR (42_parity_nibble_folder.md R132). -/
def execPclr (rsvd : BitVec 28) (s : State) : Answer :=
  answer s do
    checkReserved rsvd
    pure (writePacc s 0x00, 0)

/-- PXOR (42_parity_nibble_folder.md R133). RESULT is the new PACC. -/
def execPxor (rsvd : BitVec 20) (b : Byte) (s : State) : Answer :=
  answer s do
    checkReserved rsvd
    pure (writePacc s (s.pacc ^^^ b), zext (s.pacc ^^^ b))

/-- PFOLD; PACC is not changed (42_parity_nibble_folder.md R134). -/
def execPfold (rsvd : BitVec 28) (s : State) : Answer :=
  answer s do
    checkReserved rsvd
    pure (s, zext (nibbleFold s.pacc))

end Sys2Proof.Machine
end

