-- ==== Sys2Proof/Machine/FrameAssembler.lean ====
section
/-! DEFINITION. The frame_assembler unit: the template, buildFrame and BUILD (43_frame_assembler.md R140 to R146). -/

namespace Sys2Proof.Machine

/-- Bytes 0 to 11 of a frame: the template's fixed bytes with the four variable bytes in place (43_frame_assembler.md
R140; the meanings are 10_state.md R28). Byte 5's placeholder is never visible and is given no value (R140,
notes/assumptions/16.md). -/
def frameBody (temperature power fan ion : Byte) : List Byte :=
  [0x55, 0x5A, 0xF3, 0x08,  -- 0 to 3: sync preamble
    temperature,            -- 4: temperature
    power,                  -- 5: power state
    fan,                    -- 6: fan strength and mode bits
    0x18,                   -- 7: time hours
    0x10,                   -- 8: rotate flag
    0x01,                   -- 9: fixed
    0x00,                   -- 10: time minutes
    ion]                    -- 11: ion mode

/-- The parity byte `0x80 | parity(F[0..12))` of bytes 0 to 11 (43_frame_assembler.md R141 step 5). -/
def parityByte (body : List Byte) : Byte := 0x80#8 ||| (parity body).setWidth 8

/-- Byte 4: `(encTemp(t) << 4)[7:0]` when on, TPL4 when off (43_frame_assembler.md R142). -/
def temperatureByte (cfg : Config) (power : Bool) (t : Int) : Except Cause Byte :=
  if power then (encTemp cfg t).map fun code => (code.setWidth 8 : Byte) <<< (4 : Nat) else .ok cfg.tpl4

/-- Byte 6: `encFan(sel)` when on, TPL6 when off (43_frame_assembler.md R143). -/
def fanByte (cfg : Config) (power : Bool) (sel : FanSel) : Except Cause Byte :=
  if power then encFan sel else .ok cfg.tpl6

/-- Byte 11: `encIon(true)` if ion is requested, the template's 0x0F if not, whatever the power (43_frame_assembler.md
R140, R144). -/
def ionByte (ion : Bool) : Byte := if ion then encIon true else 0x0F#8

/-- `buildFrame(power, t, sel, ion)`: the 13 bytes, or the first error in step order (43_frame_assembler.md R141). When
off, t and sel are neither read nor checked (R146). -/
def buildFrame (cfg : Config) (power : Bool) (t : Int) (sel : FanSel) (ion : Bool) : Except Cause (List Byte) := do
  let byte4 ← temperatureByte cfg power t
  let byte6 ← fanByte cfg power sel
  let body := frameBody byte4 (encPower power) byte6 (ionByte ion)
  pure (body ++ [parityByte body])

/-- The frame of a command after the checks of BUILD and SEND, in the order of 60_exceptions.md R203
(43_frame_assembler.md R145, 44_ir_pulse_sequence_generator.md R165). -/
def commandFrame (cfg : Config) (c : Command) : Except Cause (List Byte) := do
  checkReserved c.rsvd
  let power ← powerOperand c.pwr
  checkTemperatureGiven power c.tempV
  buildFrame cfg power (temperatureOperand c) c.fan c.ion

/-- BUILD (43_frame_assembler.md R145). RESULT is F[12]; a frame has 13 bytes, so the default of `getD` is never
used. -/
def execBuild (c : Command) (s : State) : Answer :=
  answer s do
    let F ← commandFrame s.cfg c
    pure (storeFrame s F, zext (F.getD 12 0))

end Sys2Proof.Machine
end

