-- ==== Sys2Proof/Machine/PulseGenerator.lean ====
section
/-! DEFINITION. The ir_pulse_sequence_generator unit: encodePulses, ENCODE and SEND (44_ir_pulse_sequence_generator.md
R160 to R167), the packed output (20_memory.md R45) and the mark and space labels (R47). -/

namespace Sys2Proof.Machine

/-- T_US, 450 microseconds (00_scope.md R8). -/
def tUs : Nat := 450

/-- The two durations of one data bit: [3T, T] for 1, [T, T] for 0 (44_ir_pulse_sequence_generator.md R160). -/
def bitDurations (b : Bool) : List Nat := if b then [3 * tUs, tUs] else [tUs, tUs]

/-- The sixteen durations of one byte, bit 7 first and bit 0 last (20_memory.md R42). -/
def byteDurations (x : Byte) : List Nat :=
  [7, 6, 5, 4, 3, 2, 1, 0].flatMap fun b => bitDurations (x.getLsbD b)

/-- `encodePulses(F)` on a byte sequence of any length: FRAME_LENGTH unless it has 13 bytes
(44_ir_pulse_sequence_generator.md R160, R166). -/
def encodePulses (F : List Byte) : Except Cause (List Nat) :=
  if F.length = frameLen then .ok ([8 * tUs, 4 * tUs, tUs] ++ F.flatMap byteDurations)
  else .error .frameLength

/-- `[FRAME[0], ..., FRAME[12]]`, or UNWRITTEN where a byte holds no value, that is where STAT.FV[12:0] is not 0x1FFF
(44_ir_pulse_sequence_generator.md R164). -/
def readFrame (s : State) : Except Cause (List Byte) := valueOrUnwritten (s.frame.readFrom 0 frameLen)

/-- ENCODE (44_ir_pulse_sequence_generator.md R164). FRAME is encoded as it stands (R167). -/
def execEncode (rsvd : BitVec 28) (s : State) : Answer :=
  answer s do
    checkReserved rsvd
    let F ← readFrame s
    let S ← encodePulses F
    pure (storePulse s S, 211)

/-- SEND: BUILD's checks and frame, then ENCODE's sequence, in one operation (44_ir_pulse_sequence_generator.md
R165). -/
def execSend (c : Command) (s : State) : Answer :=
  answer s do
    let F ← commandFrame s.cfg c
    let S ← encodePulses F
    pure (storePulse (storeFrame s F) S, 211)

/-- The four bytes of one packed entry, lowest offset first (20_memory.md R45). -/
def packEntry : Endian → Word → List Byte
  | .little, v => [0, 1, 2, 3].map fun k => v.extractLsb' (8 * k) 8
  | .big, v => [0, 1, 2, 3].map fun k => v.extractLsb' (24 - 8 * k) 8

/-- PACKED, the byte buffer offered to the sink: no value while STAT.PV = 0 (20_memory.md R45, 10_state.md R31). -/
def packed (s : State) : Option (List Byte) :=
  if pv s then some (s.pulse.flatMap fun cell => packEntry s.cfg.sinkEndian cell.2) else none

/-- Whether the IR carrier is on or off (20_memory.md R47). -/
inductive Interval where
  | mark
  | space
deriving DecidableEq, Repr

/-- The label of PULSE[j]: a mark at an even index, a space at an odd one (20_memory.md R47). -/
def intervalAt (j : Nat) : Interval := if j % 2 = 0 then .mark else .space

end Sys2Proof.Machine
end

