-- ==== Sys2Proof/Machine/Dispatch.lean ====
section
/-! DEFINITION. One arm per operation (30_encoding.md R70). -/

namespace Sys2Proof.Machine

def exec (i : Instr) (s : State) : Host.Outcome State Fault Refusal :=
  match i with
  | .rev rsvd k n => Sys2Proof.Machine.execRev rsvd k n s
  | .enct c => Sys2Proof.Machine.execEnct c s
  | .encf c => Sys2Proof.Machine.execEncf c s
  | .encp c => Sys2Proof.Machine.execEncp c s
  | .enci c => Sys2Proof.Machine.execEnci c s
  | .pclr rsvd => Sys2Proof.Machine.execPclr rsvd s
  | .pxor rsvd b => Sys2Proof.Machine.execPxor rsvd b s
  | .pfold rsvd => Sys2Proof.Machine.execPfold rsvd s
  | .build c => Sys2Proof.Machine.execBuild c s
  | .encode rsvd => Sys2Proof.Machine.execEncode rsvd s
  | .send c => Sys2Proof.Machine.execSend c s
  | .fwr rsvd idx b => Sys2Proof.Machine.execFwr rsvd idx b s
  | .frd rsvd idx rsvdLow => Sys2Proof.Machine.execFrd rsvd idx rsvdLow s
  | .prd rsvd pidx => Sys2Proof.Machine.execPrd rsvd pidx s

end Sys2Proof.Machine
end

