-- ==== Sys2Proof/Machine/Port.lean ====
section
/-! DEFINITION. The block's port: what one action of the host does (00_scope.md R3; 60_exceptions.md R216;
70_reset_and_hazards.md R240, R241, R253). -/

namespace Sys2Proof.Machine

/-- `s` with these actions of the host still to come. -/
def withInbox (s : State) (rest : List HostAction) : State := { s with inbox := rest }

/-- Performs one operation word: the operation it spells, or ILLEGAL_OP (30_encoding.md R72, R75). -/
def performWord (w : Word) (s : State) : Answer :=
  match decode w with
  | .error .illegalOp => .next (raise .illegalOp s)
  | .ok i => exec i s

/-- Gives the response of the operation just performed: STAT and RESULT after it (00_scope.md R3; 10_state.md R22,
R26). -/
def giveResponse (s : State) : State :=
  { s with responses := s.responses ++ [{ stat := stat s, result := s.result }] }

/-- Carries an answer's next state on through `f`. -/
def andThen (f : State → State) : Answer → Answer
  | .next t => .next (f t)
  | .fault r => .fault r
  | .refused r => .refused r

/-- One operation word, with its response. -/
def respondTo (w : Word) (s : State) : Answer := andThen giveResponse (performWord w s)

/-- The next free value of R241 is another one (notes/assumptions/6.md). -/
def countCut (s : State) : State := { s with cuts := s.cuts + 1 }

/-- Reset asserted while `w` is performed: the operation completes before the reset or has no effect at all, which of
the two a free value decides (70_reset_and_hazards.md R241, notes/assumptions/6.md). -/
def cutByReset (w : Word) (s : State) : Answer :=
  if Config.cutCompletes s.cuts then andThen (fun t => resetBlock (countCut t)) (respondTo w s)
  else .next (resetBlock (countCut s))

/-- One action of the host. -/
def act (a : HostAction) (s : State) : Answer :=
  match a with
  | .word w => respondTo w s
  | .reset => .next (resetBlock s)
  | .resetDuring w => cutByReset w s
  | .earlyWord _ => .refused .wordBeforeResponse

/-- The host's next action, or nothing: with no word presented the block holds its state unchanged
(60_exceptions.md R216). -/
def servePort (s : State) : Answer :=
  match s.inbox with
  | [] => .next s
  | a :: rest => act a (withInbox s rest)

/-- One step of an admitted configuration; TPL6[7] = 0 is refused (00_scope.md R11). -/
def serve (s : State) : Answer :=
  if s.cfg.admitted then servePort s else .refused .configNotAdmitted

/-- The host presents the word of an opcode-table row before anything else it will do. -/
def present (s : State) (w : Word) : State := withInbox s (.word w :: s.inbox)

end Sys2Proof.Machine
end

