-- ==== Sys2Proof/Machine/Step.lean ====
section
/-! DEFINITION. One step: one action of the host at the port (Port.lean). The block fetches nothing (10_state.md R21):
the next operation is the word the host presents next. -/

namespace Sys2Proof.Machine

/-- One step of the machine. -/
def step (s : State) : Host.Outcome State Fault Refusal := serve s

/-- `s` with the operation word whose bits are `w` presented next, so that the very next step performs it
(notes/assumptions/2.md). -/
def State.withFetchWord (s : State) (nbits w : Nat) : State := present s (tableWord nbits w)

end Sys2Proof.Machine
end

