-- ==== Sys2Proof/Safety.lean ====
section
/-! DEFINITION. What a safe run of the block is: it never stops, and the status, the frame and the pulse buffer keep
the forms the spec gives them. Also the spec's own tables and response forms, written out once more for the claims, apart
from the functions of the machine. -/

namespace Sys2Proof.Machine

/-! ### The invariant -/

/-- PULSE is what ENCODE and SEND write for the frame `F`: encodePulses of it, as 32-bit entries at indices 0 to 210
(44_ir_pulse_sequence_generator.md R160, R164). -/
def PulseEncodes (p : Memory Word) (F : List Byte) : Prop :=
  ∃ S, encodePulses F = .ok S ∧ p = Memory.ofList 0 (S.map (BitVec.ofNat 32))

/-- The invariant of the block. -/
structure State.Inv (s : State) : Prop where
  /-- "CAUSE: cause code of that error; 0 when ERR = 0" (10_state.md R22). -/
  noErrorNoCause : s.err = false → s.cause = 0
  /-- A reported cause is one of 60_exceptions.md R200, never FRAME_LENGTH (44_ir_pulse_sequence_generator.md R166) and
  never a reserved code. -/
  errorHasCause : s.err = true → ∃ c : Cause, c ≠ .frameLength ∧ s.cause = c.code
  /-- "1 once any operation since reset has raised an error" (10_state.md R22, R24). -/
  errorIsSticky : s.err = true → s.serr = true
  /-- RESULT is 0 after an error (10_state.md R26). -/
  errorHasNoResult : s.err = true → s.result = 0
  /-- FRAME lists mapped indices only, in rising order (20_memory.md R50). -/
  frameCanonical : s.frame.wf frameLen = true
  /-- PULSE holds no value, or all of some frame's sequence (10_state.md R30, R31). -/
  pulseWhole : s.pulse = [] ∨ ∃ F, PulseEncodes s.pulse F

/-! ### Response forms -/

/-- The state after an error response with this code: the four assignments of 60_exceptions.md R205 and nothing
else. -/
def errorResponse (code : BitVec 4) (s : State) : State :=
  { s with err := true, cause := code, serr := true, result := 0 }

/-- The state after a completion response with value `r`: the three assignments of 60_exceptions.md R206 and nothing
else. -/
def completionResponse (r : Word) (s : State) : State :=
  { s with err := false, cause := 0, result := r }

/-- The state of the block, apart from the parameters, is as reset leaves it (10_state.md R34). -/
def BlockIsReset (s : State) : Prop :=
  stat s = 0 ∧ s.err = false ∧ s.cause = 0 ∧ s.serr = false ∧ fv s = 0 ∧ pv s = false ∧ s.result = 0 ∧ s.pacc = 0 ∧
    (∀ i, s.frame.read i = none) ∧ (∀ j, s.pulse.read j = none)

/-! ### The spec's tables -/

/-- Temperatures and their codes (41_field_encoder.md R113). The first row is the sentinel's. -/
def temperatureTable : List (Int × BitVec 4) :=
  [(10, 0x0), (18, 0x8), (19, 0x4), (20, 0xC), (21, 0x2), (22, 0xA), (23, 0x6), (24, 0xE), (25, 0x1), (26, 0x9),
    (27, 0x5), (28, 0xD), (29, 0x3), (30, 0xB), (31, 0x7), (32, 0xF)]

/-- The "byte 4 (code << 4)" column of the same table (41_field_encoder.md R113). -/
def temperatureByteTable : List (Int × Byte) :=
  [(10, 0x00), (18, 0x80), (19, 0x40), (20, 0xC0), (21, 0x20), (22, 0xA0), (23, 0x60), (24, 0xE0), (25, 0x10),
    (26, 0x90), (27, 0x50), (28, 0xD0), (29, 0x30), (30, 0xB0), (31, 0x70), (32, 0xF0)]

/-- Fan selections and their bytes (41_field_encoder.md R114). -/
def fanTable : List (FanSel × Byte) := [(.auto, 0x84), (.speed1, 0x8C), (.speed2, 0x8A), (.speed3, 0x8E)]

/-- A temperature that ENCT, and BUILD and SEND when on, accept (41_field_encoder.md R110, R111). -/
def TemperatureAccepted (cfg : Config) (t : Int) : Prop := (18 ≤ t ∧ t ≤ 32) ∨ (cfg.sentinelEn = true ∧ t = 10)

/-- Bytes 4 and 6 of a command's frame: the template's when off, the tables' when on (43_frame_assembler.md R142,
R143, R146). -/
def VariableBytes (cfg : Config) (c : Command) (b4 b6 : Byte) : Prop :=
  (c.pwr = .off ∧ b4 = cfg.tpl4 ∧ b6 = cfg.tpl6) ∨
    (c.pwr = .on ∧ c.tempV = true ∧ TemperatureAccepted cfg c.temp.toInt ∧
      (c.temp.toInt, b4) ∈ temperatureByteTable ∧ (c.fan, b6) ∈ fanTable)

/-- The command is one that BUILD and SEND complete, and `F` is the 13-byte frame the spec gives it
(43_frame_assembler.md R140 to R146). -/
def CommandHasFrame (cfg : Config) (c : Command) (F : List Byte) : Prop :=
  c.rsvd = 0 ∧ ∃ b4 b6 body, VariableBytes cfg c b4 b6 ∧
    body = [0x55, 0x5A, 0xF3, 0x08, b4, if c.pwr = .on then 0x88 else 0x84, b6, 0x18, 0x10, 0x01, 0x00,
      if c.ion then 0x2F else 0x0F] ∧
    F = body ++ [0x80#8 ||| (parity body).setWidth 8]

/-- The number of 1 bits of a byte sequence (44_ir_pulse_sequence_generator.md R162). -/
def popcount (F : List Byte) : Nat :=
  (F.map fun x => ((List.range 8).map fun b => (x.getLsbD b).toNat).sum).sum

end Sys2Proof.Machine
end

