-- ==== Sys2Proof/Certificates/Slice0/Obligations.lean ====
section
/-! DEFINITION. The statements about the model. Each names the rules of spec/ it formalises in its docstring;
OBLIGATIONS.json lists them in the same order. `inbox`, what the host will do at the port, and `responses`, what the block
has answered, are the model's own form of the port of 00_scope.md R3 (notes/assumptions/2.md and 3.md). -/

open Sys2Proof Sys2Proof.Machine

/-! ### Encoding -/

/-- Every operation, with every field at every value the formats admit, is read back from its own word (30_encoding.md
R61, R66, R70). -/
def Obligations.DecodeOfEncodeIsTheOperation : Prop :=
  ∀ i : Instr, decode (encode i) = .ok i

/-- A word that decodes is the word of the operation it decodes to: no bit of it is dropped (30_encoding.md R61, R66). -/
def Obligations.EncodeOfDecodeIsTheWord : Prop :=
  ∀ (w : Word) (i : Instr), decode w = .ok i → encode i = w

/-- One word of each family, written out from the formats of 30_encoding.md R61 and its opcode map R70 (the words are
those of the rules' own examples). -/
def Obligations.WrittenWordsDecode : Prop :=
  decode 0x1000040B = .ok (.rev 0 4 11) ∧
  decode 0x20000014 = .ok (.enct { zeroCommand with temp := 20 }) ∧
  decode 0x30C00000 = .ok (.encf { zeroCommand with fan := .speed2 }) ∧
  decode 0x70000055 = .ok (.pxor 0 0x55) ∧
  decode 0x98E00014 =
    .ok (.build { pwr := .on, ion := false, fan := .speed2, tempV := true, rsvd := 0, temp := 20 }) ∧
  decode 0xA0000000 = .ok (.encode 0) ∧
  decode 0xBB200018 =
    .ok (.send { pwr := .on, ion := true, fan := .speed3, tempV := true, rsvd := 0, temp := 24 }) ∧
  decode 0xC00004C0 = .ok (.fwr 0 4 0xC0) ∧
  decode 0xE00000D3 = .ok (.prd 0 211)

/-! ### Steps -/

/-- A step at a presented word that decodes is exec of its operation, with the word taken and the response given
(00_scope.md R3). -/
def Obligations.StepRunsTheDecodedOperation : Prop :=
  ∀ (s : State) (w : Word) (rest : List HostAction) (i : Instr),
    s.cfg.admitted = true → s.inbox = .word w :: rest → decode w = .ok i →
      step s =
        match exec i (withInbox s rest) with
        | .next t => .next { t with responses := t.responses ++ [{ stat := stat t, result := t.result }] }
        | .fault r => .fault r
        | .refused r => .refused r

/-- 30_encoding.md R72: OP 0x0 and 0xF raise ILLEGAL_OP and change nothing else; the all-zero word is one of them. -/
def Obligations.IllegalOpWordRaises : Prop :=
  opField 0 = 0x0 ∧
  ∀ (s : State) (w : Word) (rest : List HostAction),
    s.cfg.admitted = true → s.inbox = .word w :: rest → (opField w = 0x0 ∨ opField w = 0xF) →
      step s = .next (giveResponse (errorResponse 0xC (withInbox s rest)))

/-- 30_encoding.md R73: a legal OP with a nonzero bit under its format's RSVD_MASK raises RSVD, whatever the operands,
and changes nothing else. -/
def Obligations.ReservedBitRaises : Prop :=
  ∀ (s : State) (w : Word) (rest : List HostAction) (f : Format),
    s.cfg.admitted = true → s.inbox = .word w :: rest → formatOf (opField w) = some f → w &&& rsvdMask f ≠ 0 →
      step s = .next (giveResponse (errorResponse 0xB (withInbox s rest)))

/-- 30_encoding.md R75: every word raises ILLEGAL_OP, or raises RSVD, or performs the one operation of its OP with the
operands of its fields. -/
def Obligations.EveryWordIsDecodedByTheProcedure : Prop :=
  ∀ (s : State) (w : Word) (rest : List HostAction),
    s.cfg.admitted = true → s.inbox = .word w :: rest →
      match formatOf (opField w) with
      | none => (opField w = 0x0 ∨ opField w = 0xF) ∧
          step s = .next (giveResponse (errorResponse 0xC (withInbox s rest)))
      | some f =>
          if w &&& rsvdMask f ≠ 0 then step s = .next (giveResponse (errorResponse 0xB (withInbox s rest)))
          else ∃ i t, decode w = .ok i ∧ opcodeOf i = opField w ∧ encode i = w ∧ i.WellFormed = true ∧
            exec i (withInbox s rest) = .next t ∧ step s = .next (giveResponse t)

/-- Every presented word gets exactly one response, which carries STAT and RESULT after the operation (00_scope.md R3;
10_state.md R22, R26). -/
def Obligations.EveryWordGetsOneResponse : Prop :=
  ∀ (s : State) (w : Word) (rest : List HostAction),
    s.cfg.admitted = true → s.inbox = .word w :: rest →
      ∃ t, step s = .next t ∧ t.inbox = rest ∧
        t.responses = s.responses ++ [{ stat := stat t, result := t.result }]

/-- A run of any words, one step for each, never stops and gives one response for each: an error refuses no later word
(60_exceptions.md R207; 20_memory.md R52). -/
def Obligations.RunsOfWordsNeverStop : Prop :=
  ∀ (ws : List Word) (rest : List HostAction) (s : State),
    s.cfg.admitted = true → s.inbox = ws.map HostAction.word ++ rest →
      ∃ t, Host.Core.run Sys2Proof.core ws.length s = .next t ∧ t.inbox = rest ∧ t.cfg = s.cfg ∧
        t.responses.length = s.responses.length + ws.length

/-- 60_exceptions.md R216: with no word presented the block holds its state unchanged. -/
def Obligations.IdleBlockHoldsItsState : Prop :=
  ∀ s : State, s.cfg.admitted = true → s.inbox = [] → step s = .next s

/-- 00_scope.md R11: TPL6[7] = 0 is refused, TPL6[7] = 1 is not, the default 0x80 is admitted, and TPL6 is frame byte 6 of
the template, which an off command keeps. -/
def Obligations.ConfigurationWithoutBit7IsRefused : Prop :=
  Config.default.tpl6 = 0x80 ∧ Config.default.admitted = true ∧
  (∀ s : State, step s = .refused .configNotAdmitted ↔ s.cfg.tpl6.getLsbD 7 = false) ∧
  ∀ (s : State) (c : Command), c.rsvd = 0 → c.pwr = .off →
    ∃ t, exec (.build c) s = .next t ∧ t.frame.read 6 = some s.cfg.tpl6

/-- A word presented before the previous response is outside the model and is refused (70_reset_and_hazards.md R253;
93_implementation_defined.md U20). Which name the refusal has is the model's choice (notes/assumptions/8.md). -/
def Obligations.EarlyWordIsRefused : Prop :=
  ∀ (s : State) (w : Word) (rest : List HostAction),
    s.cfg.admitted = true → s.inbox = .earlyWord w :: rest → step s = .refused .wordBeforeResponse

/-! ### Reset -/

/-- 10_state.md R34: the value of every piece of state after reset. -/
def Obligations.ResetStateHasTheResetValues : Prop :=
  BlockIsReset State.reset ∧ packed State.reset = none

/-- 70_reset_and_hazards.md R240 and R242: reset gives every piece of state its reset value, keeps the parameters, and
leaves the block ready for the host's next action. -/
def Obligations.ResetGivesTheResetValues : Prop :=
  ∀ (s : State) (rest : List HostAction), s.cfg.admitted = true → s.inbox = .reset :: rest →
    ∃ t, step s = .next t ∧ BlockIsReset t ∧ t.cfg = s.cfg ∧ t.inbox = rest

/-- 70_reset_and_hazards.md R241: an operation cut by reset completes before the reset, and then its response is given,
or has no effect at all; the state after reset is the same either way. It holds for every value of the free value that
decides (the model's choice of form, notes/assumptions/6.md). -/
def Obligations.ResetCutsAnOperationCleanly : Prop :=
  ∀ (s : State) (w : Word) (rest : List HostAction),
    s.cfg.admitted = true → s.inbox = .resetDuring w :: rest →
      ∃ t, step s = .next t ∧ BlockIsReset t ∧ t.cfg = s.cfg ∧ t.inbox = rest ∧
        (t.responses = s.responses ∨
          ∃ u, step (withInbox s (.word w :: rest)) = .next u ∧ t.responses = u.responses)

/-- No step, a reset included, changes a parameter (00_scope.md R14; 70_reset_and_hazards.md R242). -/
def Obligations.ParametersNeverChange : Prop :=
  ∀ s t : State, step s = .next t → t.cfg = s.cfg

/-! ### Invariants -/

/-- The machine right after reset meets the invariant. -/
def Obligations.ResetMeetsTheInvariant : Prop := State.reset.Inv

/-- Every step keeps the invariant: the status fields agree, FRAME keeps its canonical form, and PULSE holds nothing or
the whole sequence of some frame (10_state.md R22 to R31). -/
def Obligations.EveryStepKeepsTheInvariant : Prop :=
  ∀ s t : State, s.Inv → step s = .next t → t.Inv

/-! ### Status -/

/-- The places of the fields of STAT, and what the validity bits say (10_state.md R22). -/
def Obligations.StatHoldsItsFields : Prop :=
  ∀ s : State,
    (stat s).getLsbD 0 = s.err ∧ field (stat s) 1 4 = s.cause ∧ (stat s).getLsbD 5 = pv s ∧
    (∀ i, i < 13 → (stat s).getLsbD (6 + i) = (s.frame.read i).isSome) ∧ (stat s).getLsbD 19 = s.serr ∧
    field (stat s) 20 12 = 0 ∧
    (s.pulse.wf pulseLen = true → (pv s = true ↔ ∀ j, j < 211 → (s.pulse.read j).isSome = true))

/-- 10_state.md R23 and 60_exceptions.md R205: after a word the block has completed it, with ERR = 0, CAUSE = 0 and SERR
as before, or has raised one error, with the four assignments of R205, its response given, and nothing else changed. -/
def Obligations.EveryWordCompletesOrRaisesPrecisely : Prop :=
  ∀ (s t : State) (w : Word) (rest : List HostAction), s.inbox = .word w :: rest → step s = .next t →
    (t.err = false ∧ t.cause = 0 ∧ t.serr = s.serr) ∨
    (∃ c : Cause, c ≠ .frameLength ∧ t = giveResponse (errorResponse c.code (withInbox s rest)))

/-- 10_state.md R24: SERR is set by every word that raises an error, and no word clears it. -/
def Obligations.StickyErrorIsNeverCleared : Prop :=
  ∀ (s t : State) (w : Word) (rest : List HostAction), s.inbox = .word w :: rest → step s = .next t →
    (t.err = true → t.serr = true) ∧ (s.serr = true → t.serr = true)

/-- FV and PV are "never cleared except by reset" (10_state.md R22). -/
def Obligations.ValidityBitsAreNeverCleared : Prop :=
  ∀ (i : Instr) (s t : State), exec i s = .next t →
    (∀ j, (fv s).getLsbD j = true → (fv t).getLsbD j = true) ∧ (pv s = true → pv t = true)

/-- "Only PCLR and PXOR write it" (10_state.md R27): every other operation leaves PACC as it was. -/
def Obligations.AccumulatorIsWrittenOnlyByPclrAndPxor : Prop :=
  ∀ (i : Instr) (s t : State), exec i s = .next t → (∀ r, i ≠ .pclr r) → (∀ r b, i ≠ .pxor r b) → t.pacc = s.pacc

/-- Only BUILD, SEND and FWR write FRAME (10_state.md R20), so every other operation leaves every frame byte as it
was. -/
def Obligations.FrameIsWrittenOnlyByItsWriters : Prop :=
  ∀ (i : Instr) (s t : State), exec i s = .next t →
    (∀ c, i ≠ .build c) → (∀ c, i ≠ .send c) → (∀ r k b, i ≠ .fwr r k b) →
      ∀ a, t.frame.read a = s.frame.read a

/-- 10_state.md R32: PULSE is not recomputed when FRAME changes. Every operation but ENCODE and SEND leaves every pulse
entry, and PV, as they were. -/
def Obligations.PulseIsWrittenOnlyByEncodeAndSend : Prop :=
  ∀ (i : Instr) (s t : State), exec i s = .next t → (∀ r, i ≠ .encode r) → (∀ c, i ≠ .send c) →
    (∀ j, t.pulse.read j = s.pulse.read j) ∧ pv t = pv s

/-! ### bit_reverser -/

/-- 40_bit_reverser.md R100: bit k-1-i of the result is bit i of n for the low k bits, and the rest is 0. -/
def Obligations.ReverseReversesTheLowBits : Prop :=
  ∀ (n : Byte) (k : Nat), k ≤ 8 →
    (∀ i, i < k → (reverse n k).getLsbD (k - 1 - i) = n.getLsbD i) ∧
    (∀ j, k ≤ j → (reverse n k).getLsbD j = false)

/-- The five laws of reverse, which the spec marks as its own inference: 40_bit_reverser.md R102, "[derived: from rule
R100]". -/
def Obligations.ReverseLaws : Prop :=
  (∀ (n : Byte) (k : Nat), 1 ≤ k → k ≤ 8 → n.toNat < 2 ^ k → reverse (reverse n k) k = n) ∧
  (∀ k, k ≤ 8 → reverse 0 k = 0 ∧ reverse (BitVec.ofNat 8 (2 ^ k - 1)) k = BitVec.ofNat 8 (2 ^ k - 1)) ∧
  (∀ k, 1 ≤ k → k ≤ 8 → reverse 1 k = BitVec.ofNat 8 (2 ^ (k - 1))) ∧
  (∀ n : Byte, reverse n 1 = (BitVec.ofBool (n.getLsbD 0)).setWidth 8 ∧ reverse n 0 = 0) ∧
  (∀ (n : Byte) (k : Nat), k ≤ 8 → reverse n k = reverse (n &&& BitVec.ofNat 8 (2 ^ k - 1)) k)

/-- REV completes for K of 0 to 8 with the low K bits of N reversed, and raises REV_WIDTH for K of 9 to 15; nothing else
changes (40_bit_reverser.md R101). -/
def Obligations.RevCompletes : Prop :=
  ∀ (s : State) (k : BitVec 4) (n : Byte),
    (k.toNat ≤ 8 → ∃ r : Byte,
      (∀ j, j < 8 → r.getLsbD j = (decide (j < k.toNat) && n.getLsbD (k.toNat - 1 - j))) ∧
      exec (.rev 0 k n) s = .next (completionResponse (r.setWidth 32) s)) ∧
    (8 < k.toNat → exec (.rev 0 k n) s = .next (errorResponse 0x8 s))

/-! ### field_encoder -/

/-- ENCT completes for every accepted temperature with the code of the table of 41_field_encoder.md R113, and raises
TEMP_RANGE for every other one; it ignores the other fields, and nothing else changes (R110, R112). -/
def Obligations.EnctCompletes : Prop :=
  ∀ (s : State) (c : Command), c.rsvd = 0 →
    (TemperatureAccepted s.cfg c.temp.toInt → ∃ code : BitVec 4, (c.temp.toInt, code) ∈ temperatureTable ∧
      exec (.enct c) s = .next (completionResponse (code.setWidth 32) s)) ∧
    (¬ TemperatureAccepted s.cfg c.temp.toInt → exec (.enct c) s = .next (errorResponse 0x4 s))

/-- 41_field_encoder.md R111: 10 gives the code of 17 - 17 = 0 when SENTINEL_EN = 1 and fails the range check when it is
0; 17 itself is rejected either way. -/
def Obligations.SentinelIsABranchOfItsOwn : Prop :=
  ∀ (s : State) (c : Command), c.rsvd = 0 →
    (c.temp.toInt = 10 → s.cfg.sentinelEn = true → exec (.enct c) s = .next (completionResponse 0 s)) ∧
    (c.temp.toInt = 10 → s.cfg.sentinelEn = false → exec (.enct c) s = .next (errorResponse 0x4 s)) ∧
    (c.temp.toInt = 17 → exec (.enct c) s = .next (errorResponse 0x4 s))

/-- ENCF completes for the four fan selections with their bytes, and raises FAN_MISSING or FAN_UNRECOGNIZED for the
others, whatever the other fields hold; nothing else changes (41_field_encoder.md R114, R115). -/
def Obligations.EncfCompletes : Prop :=
  ∀ (s : State) (c : Command), c.rsvd = 0 →
    (∀ b, (c.fan, b) ∈ fanTable → exec (.encf c) s = .next (completionResponse (b.setWidth 32) s)) ∧
    (c.fan = .notGiven → exec (.encf c) s = .next (errorResponse 0x5 s)) ∧
    (c.fan = .unrecognized5 ∨ c.fan = .unrecognized6 ∨ c.fan = .unrecognized7 →
      exec (.encf c) s = .next (errorResponse 0x6 s))

/-- ENCP completes for on and off with 0x88 and 0x84, and raises PWR_MISSING or PWR_CONFLICT for neither and both;
nothing else changes (41_field_encoder.md R117, R118). -/
def Obligations.EncpCompletes : Prop :=
  ∀ (s : State) (c : Command), c.rsvd = 0 →
    (c.pwr = .on → exec (.encp c) s = .next (completionResponse 0x88 s)) ∧
    (c.pwr = .off → exec (.encp c) s = .next (completionResponse 0x84 s)) ∧
    (c.pwr = .neither → exec (.encp c) s = .next (errorResponse 0x1 s)) ∧
    (c.pwr = .both → exec (.encp c) s = .next (errorResponse 0x2 s))

/-- ENCI completes for both values of ION with 0x2F and 0x0F; nothing else changes (41_field_encoder.md R120, R121). -/
def Obligations.EnciCompletes : Prop :=
  ∀ (s : State) (c : Command), c.rsvd = 0 →
    exec (.enci c) s = .next (completionResponse (if c.ion then 0x2F else 0x0F) s)

/-! ### parity_nibble_folder -/

/-- The laws of parity, which the spec marks as its own inference (42_parity_nibble_folder.md R131, "[derived: from rule
R130]"), with the closure as 90_conflicts.md C5 corrects it. -/
def Obligations.ParityLaws : Prop :=
  parity [] = 0 ∧
  (∀ B C : List Byte, B.foldr (· ^^^ ·) 0 = C.foldr (· ^^^ ·) 0 → parity B = parity C) ∧
  (∀ B C : List Byte, B.Perm C → parity B = parity C) ∧
  (∀ B : List Byte, parity B =
    (B.foldr (· ^^^ ·) 0).extractLsb' 4 4 ^^^ (B.foldr (· ^^^ ·) 0).extractLsb' 0 4) ∧
  (∀ B : List Byte, parity (B ++ [(parity B).setWidth 8]) = 0) ∧
  (∀ B : List Byte, parity (B ++ [0x80#8 ||| (parity B).setWidth 8]) = 0x8)

/-- PCLR completes with PACC and RESULT 0; nothing else changes (42_parity_nibble_folder.md R132). -/
def Obligations.PclrCompletes : Prop :=
  ∀ s : State, exec (.pclr 0) s = .next (completionResponse 0 { s with pacc := 0 })

/-- PXOR completes with PACC xor B in PACC and in RESULT; nothing else changes (42_parity_nibble_folder.md R133). -/
def Obligations.PxorCompletes : Prop :=
  ∀ (s : State) (b : Byte),
    exec (.pxor 0 b) s = .next (completionResponse ((s.pacc ^^^ b).setWidth 32) { s with pacc := s.pacc ^^^ b })

/-- PFOLD completes with each low bit of PACC xor its high bit; PACC and all else stay (42_parity_nibble_folder.md
R134). -/
def Obligations.PfoldCompletes : Prop :=
  ∀ s : State, ∃ r : BitVec 4,
    (∀ j, j < 4 → r.getLsbD j = (s.pacc.getLsbD j ^^ s.pacc.getLsbD (j + 4))) ∧
    exec (.pfold 0) s = .next (completionResponse (r.setWidth 32) s)

/-- 42_parity_nibble_folder.md R135: PCLR, a run of PXOR words and PFOLD give the parity of the folded bytes, from any
state; PACC then holds their XOR; a PXOR whose reserved bits raise RSVD folds nothing in. The spec marks the rule as its
own inference ("[derived: from rules R130, R132, R133 and R134]"). -/
def Obligations.ParityRunComputesParity : Prop :=
  ∀ (words : List (BitVec 20 × Byte)) (rest : List HostAction) (s : State), s.cfg.admitted = true →
    s.inbox = .word (encode (.pclr 0)) ::
      (words.map fun p => .word (encode (.pxor p.1 p.2))) ++ .word (encode (.pfold 0)) :: rest →
    ∃ t, Host.Core.run Sys2Proof.core (words.length + 2) s = .next t ∧ t.inbox = rest ∧
      t.result = (parity ((words.filter fun p => p.1 == 0).map Prod.snd)).setWidth 32 ∧
      t.pacc = ((words.filter fun p => p.1 == 0).map Prod.snd).foldr (· ^^^ ·) 0

/-! ### frame_assembler -/

/-- BUILD completes for every command the spec gives a frame: it writes exactly the 13 bytes of that frame, sets all
thirteen FV bits and answers byte 12; nothing else changes (43_frame_assembler.md R140 to R145). -/
def Obligations.BuildWritesTheFrame : Prop :=
  ∀ (s : State) (c : Command) (F : List Byte), CommandHasFrame s.cfg c F →
    ∃ (t : State) (p : Byte), exec (.build c) s = .next t ∧ F[12]? = some p ∧
      t = completionResponse (p.setWidth 32) { s with frame := t.frame } ∧
      (∀ i, t.frame.read i = F[i]?) ∧ fv t = 0x1FFF

/-- 43_frame_assembler.md R146: an off command completes whatever TEMP_V, TEMP and FAN_SEL hold, with bytes 4 and 6 from
the template. -/
def Obligations.OffCommandIgnoresTemperatureAndFan : Prop :=
  ∀ (s : State) (ion tempV : Bool) (fan : FanSel) (temp : Byte),
    ∃ t, exec (.build { pwr := .off, ion := ion, fan := fan, tempV := tempV, rsvd := 0, temp := temp }) s = .next t ∧
      t.err = false ∧ t.frame.read 4 = some s.cfg.tpl4 ∧ t.frame.read 5 = some 0x84 ∧
      t.frame.read 6 = some s.cfg.tpl6 ∧ t.frame.read 11 = some (if ion then 0x2F else 0x0F) ∧
      ∃ u, exec (.send { pwr := .off, ion := ion, fan := fan, tempV := tempV, rsvd := 0, temp := temp }) s = .next u ∧
        u.err = false ∧ u.frame = t.frame

/-- The errors of BUILD and SEND in their order of priority: each clause has passed every check before it. On each of
them nothing else changes (43_frame_assembler.md R145; 44_ir_pulse_sequence_generator.md R165; 60_exceptions.md R200,
R203). -/
def Obligations.BuildAndSendRaiseTheFirstError : Prop :=
  ∀ (s : State) (c : Command) (i : Instr), (i = .build c ∨ i = .send c) →
    (c.rsvd ≠ 0 → exec i s = .next (errorResponse 0xB s)) ∧
    (c.rsvd = 0 → c.pwr = .neither → exec i s = .next (errorResponse 0x1 s)) ∧
    (c.rsvd = 0 → c.pwr = .both → exec i s = .next (errorResponse 0x2 s)) ∧
    (c.rsvd = 0 → c.pwr = .on → c.tempV = false → exec i s = .next (errorResponse 0x3 s)) ∧
    (c.rsvd = 0 → c.pwr = .on → c.tempV = true → ¬ TemperatureAccepted s.cfg c.temp.toInt →
      exec i s = .next (errorResponse 0x4 s)) ∧
    (c.rsvd = 0 → c.pwr = .on → c.tempV = true → TemperatureAccepted s.cfg c.temp.toInt → c.fan = .notGiven →
      exec i s = .next (errorResponse 0x5 s)) ∧
    (c.rsvd = 0 → c.pwr = .on → c.tempV = true → TemperatureAccepted s.cfg c.temp.toInt →
      (c.fan = .unrecognized5 ∨ c.fan = .unrecognized6 ∨ c.fan = .unrecognized7) →
      exec i s = .next (errorResponse 0x6 s))

/-- The properties of every frame BUILD writes, in an admitted configuration: 43_frame_assembler.md R147, which the spec
marks as its own inference ("[derived: from rules R140 to R146]"). -/
def Obligations.BuiltFramesHaveTheFrameProperties : Prop :=
  ∀ (s t : State) (c : Command), s.cfg.admitted = true → exec (.build c) s = .next t → t.err = false →
    ∃ F : List Byte, F.length = 13 ∧ (∀ i, t.frame.read i = F[i]?) ∧
      F.take 4 = [0x55, 0x5A, 0xF3, 0x08] ∧ (F.drop 7).take 4 = [0x18, 0x10, 0x01, 0x00] ∧
      (F[5]? = some 0x84 ∨ F[5]? = some 0x88) ∧ (∃ b6 : Byte, F[6]? = some b6 ∧ b6.getLsbD 7 = true) ∧
      (F[11]? = some 0x0F ∨ F[11]? = some 0x2F) ∧
      ∃ p : Byte, F[12]? = some p ∧ p = 0x80#8 ||| (parity (F.take 12)).setWidth 8 ∧
        p.getLsbD 7 = true ∧ p.extractLsb' 4 3 = 0

/-- The XOR of the fixed bytes is 0xFD, and byte 12 follows from the variable bytes: 43_frame_assembler.md R148, which the
spec marks as its own inference ("[derived: from rules R140, R141 ...]"). -/
def Obligations.ParityByteHasAClosedForm : Prop :=
  [0x55#8, 0x5A, 0xF3, 0x08, 0x18, 0x10, 0x01, 0x00].foldr (· ^^^ ·) 0 = 0xFD ∧
  ∀ (s t : State) (c : Command), exec (.build c) s = .next t → t.err = false →
    ∃ b4 b5 b6 b11 : Byte, t.frame.read 4 = some b4 ∧ t.frame.read 5 = some b5 ∧ t.frame.read 6 = some b6 ∧
      t.frame.read 11 = some b11 ∧
      t.frame.read 12 = some (0x80#8 ||| (parity [0xFD ^^^ b4 ^^^ b5 ^^^ b6 ^^^ b11]).setWidth 8)

/-- BUILD's frame, and SEND's frame and sequence, depend only on the word and the parameters, never on the state before:
43_frame_assembler.md R149 and 70_reset_and_hazards.md R244, both marked by the spec as its own inference. -/
def Obligations.BuildAndSendDependOnlyOnWordAndParameters : Prop :=
  ∀ (s s' t t' : State) (c : Command), s.cfg = s'.cfg →
    (exec (.build c) s = .next t → exec (.build c) s' = .next t' →
      t.err = t'.err ∧ t.result = t'.result ∧ (t.err = false → t.frame = t'.frame)) ∧
    (exec (.send c) s = .next t → exec (.send c) s' = .next t' →
      t.err = t'.err ∧ t.result = t'.result ∧ (t.err = false → t.frame = t'.frame ∧ t.pulse = t'.pulse))

/-! ### ir_pulse_sequence_generator -/

/-- The position and the value of every entry: 44_ir_pulse_sequence_generator.md R161, which the spec marks as its own
inference ("[derived: from rule R160]"). -/
def Obligations.PulsePositions : Prop :=
  ∀ (F : List Byte) (S : List Nat), F.length = 13 → encodePulses F = .ok S →
    S[0]? = some 3600 ∧ S[1]? = some 1800 ∧ S[2]? = some 450 ∧
    (∀ i b (x : Byte), F[i]? = some x → b ≤ 7 →
      S[3 + 16 * i + 2 * (7 - b)]? = some (if x.getLsbD b then 1350 else 450) ∧
      S[3 + 16 * i + 2 * (7 - b) + 1]? = some 450) ∧
    (∀ j, 4 ≤ j → j ≤ 210 → j % 2 = 0 → S[j]? = some 450) ∧
    (∀ v ∈ S, (v = 450 ∨ v = 1350 ∨ v = 1800 ∨ v = 3600) ∧ 0 < v ∧ v % 450 = 0 ∧ v ≤ 3600)

/-- Length, header, total duration, injectivity, and the marks that last T: 44_ir_pulse_sequence_generator.md R162, which
the spec marks as its own inference ("[derived: from rules R160 and R161]"). -/
def Obligations.PulseSequenceLaws : Prop :=
  (∀ (F : List Byte) (S : List Nat), F.length = 13 → encodePulses F = .ok S →
    S.length = 211 ∧ S.take 3 = [3600, 1800, 450] ∧ S.sum = 99450 + 900 * popcount F ∧
    (∀ i b (x : Byte), F[i]? = some x → b ≤ 7 →
      (x.getLsbD b = true ↔ S[3 + 16 * i + 2 * (7 - b)]? = some 1350)) ∧
    (∀ j v, S[j]? = some v → intervalAt j = .mark → j ≠ 0 → v = 450)) ∧
  (∀ (F G : List Byte) (S : List Nat), encodePulses F = .ok S → encodePulses G = .ok S → F = G)

/-- encodePulses answers for a sequence of 13 bytes and raises FRAME_LENGTH for every other length
(44_ir_pulse_sequence_generator.md R160, R166; 93_implementation_defined.md U11). -/
def Obligations.EncodePulsesChecksTheLength : Prop :=
  ∀ F : List Byte, (F.length = 13 → ∃ S, encodePulses F = .ok S) ∧ (F.length ≠ 13 → encodePulses F = .error .frameLength)

/-- ENCODE completes once all 13 frame bytes hold a value: it writes exactly the 211 entries of the frame as it stands,
sets PV and answers 211; nothing else changes (44_ir_pulse_sequence_generator.md R164, R167). -/
def Obligations.EncodeWritesThePulses : Prop :=
  ∀ (s : State) (F : List Byte), F.length = 13 → (∀ i, i < 13 → s.frame.read i = F[i]?) →
    ∃ t, exec (.encode 0) s = .next t ∧ t = completionResponse 211 { s with pulse := t.pulse } ∧ pv t = true ∧
      t.pulse.read 0 = some 3600 ∧ t.pulse.read 1 = some 1800 ∧ t.pulse.read 2 = some 450 ∧
      (∀ i b (x : Byte), F[i]? = some x → b ≤ 7 →
        t.pulse.read (3 + 16 * i + 2 * (7 - b)) = some (if x.getLsbD b then 1350 else 450) ∧
        t.pulse.read (3 + 16 * i + 2 * (7 - b) + 1) = some 450) ∧
      (∀ j, 211 ≤ j → t.pulse.read j = none)

/-- ENCODE raises UNWRITTEN while some frame byte holds no value; nothing else changes
(44_ir_pulse_sequence_generator.md R164; 10_state.md R29). -/
def Obligations.EncodeOfAnUnwrittenFrameRaises : Prop :=
  ∀ s : State, fv s ≠ 0x1FFF → exec (.encode 0) s = .next (errorResponse 0xA s)

/-- SEND completes for every command the spec gives a frame: the frame's 13 bytes, the 211 entries of its sequence, FV,
PV and 211; nothing else changes (44_ir_pulse_sequence_generator.md R165). -/
def Obligations.SendWritesFrameAndPulses : Prop :=
  ∀ (s : State) (c : Command) (F : List Byte), CommandHasFrame s.cfg c F →
    ∃ t, exec (.send c) s = .next t ∧
      t = completionResponse 211 { s with frame := t.frame, pulse := t.pulse } ∧
      (∀ i, t.frame.read i = F[i]?) ∧ fv t = 0x1FFF ∧ PulseEncodes t.pulse F ∧ pv t = true

/-- SEND is BUILD followed by ENCODE, in one operation: where BUILD completes, SEND ends in the very state that ENCODE
ends in after it; where BUILD raises an error, SEND ends as BUILD does (44_ir_pulse_sequence_generator.md R165). -/
def Obligations.SendIsBuildThenEncode : Prop :=
  ∀ (c : Command) (s u : State), exec (.build c) s = .next u →
    (u.err = false → exec (.send c) s = exec (.encode 0) u) ∧
    (u.err = true → exec (.send c) s = .next u)

/-- 20_memory.md R45: PACKED holds a value exactly while PV = 1, and byte 4j + k of its 844 is the k-th byte of entry j
in the sink's byte order. -/
def Obligations.PackedFollowsPulse : Prop :=
  ∀ s : State,
    (pv s = false → packed s = none) ∧
    (pv s = true → ∃ bytes : List Byte, packed s = some bytes ∧ bytes.length = 844 ∧
      ∀ j k, j ≤ 210 → k ≤ 3 → ∃ v : Word, s.pulse.read j = some v ∧
        (s.cfg.sinkEndian = .little → bytes[4 * j + k]? = some (v.extractLsb' (8 * k) 8)) ∧
        (s.cfg.sinkEndian = .big → bytes[4 * j + k]? = some (v.extractLsb' (24 - 8 * k) 8)))

/-- The first 12 packed bytes after any ENCODE or SEND that completes, for a little-endian sink:
44_ir_pulse_sequence_generator.md R168, which the spec marks as its own inference ("[derived: from rule R161 ...]"). -/
def Obligations.PackedBeginsWithTheHeader : Prop :=
  ∀ (s t : State) (i : Instr), s.cfg.sinkEndian = .little → ((∃ r, i = .encode r) ∨ (∃ c, i = .send c)) →
    exec i s = .next t → t.err = false →
      ∃ bytes, packed t = some bytes ∧
        bytes.take 12 = [0x10, 0x0E, 0x00, 0x00, 0x08, 0x07, 0x00, 0x00, 0xC2, 0x01, 0x00, 0x00]

/-! ### Host access -/

/-- FWR completes for index 0 to 12: that byte holds B, so its FV bit is 1, and every other byte is as before; it raises
INDEX_RANGE for 13 to 15; nothing else changes (45_host_access.md R180). -/
def Obligations.FwrWritesOneByte : Prop :=
  ∀ (s : State) (idx : BitVec 4) (b : Byte),
    (idx.toNat ≤ 12 → ∃ t, exec (.fwr 0 idx b) s = .next t ∧
      t = completionResponse 0 { s with frame := t.frame } ∧
      (∀ a, t.frame.read a = if a = idx.toNat then some b else s.frame.read a) ∧
      (fv t).getLsbD idx.toNat = true) ∧
    (12 < idx.toNat → exec (.fwr 0 idx b) s = .next (errorResponse 0x9 s))

/-- FRD completes with the byte that the index holds, raises UNWRITTEN where it holds none, and raises INDEX_RANGE for 13
to 15 even then; nothing else changes (45_host_access.md R181, R183). -/
def Obligations.FrdReadsOneByte : Prop :=
  ∀ (s : State) (idx : BitVec 4),
    (∀ b, idx.toNat ≤ 12 → s.frame.read idx.toNat = some b →
      exec (.frd 0 idx 0) s = .next (completionResponse (b.setWidth 32) s)) ∧
    (idx.toNat ≤ 12 → s.frame.read idx.toNat = none → exec (.frd 0 idx 0) s = .next (errorResponse 0xA s)) ∧
    (12 < idx.toNat → exec (.frd 0 idx 0) s = .next (errorResponse 0x9 s))

/-- PRD completes with the entry that the index holds while PV = 1, raises UNWRITTEN while PV = 0, and raises INDEX_RANGE
for 211 to 255 even then; nothing else changes (45_host_access.md R182, R183). -/
def Obligations.PrdReadsOneEntry : Prop :=
  ∀ (s : State) (pidx : BitVec 8),
    (pidx.toNat ≤ 210 → pv s = true → ∃ v, s.pulse.read pidx.toNat = some v ∧
      exec (.prd 0 pidx) s = .next (completionResponse v s)) ∧
    (pidx.toNat ≤ 210 → pv s = false → exec (.prd 0 pidx) s = .next (errorResponse 0xA s)) ∧
    (210 < pidx.toNat → exec (.prd 0 pidx) s = .next (errorResponse 0x9 s))

/-- A byte written by FWR is the byte FRD of the same index reads next, whatever it is (45_host_access.md R180, R181). -/
def Obligations.FrdReturnsWhatFwrWrote : Prop :=
  ∀ (s : State) (idx : BitVec 4) (b : Byte), idx.toNat ≤ 12 →
    ∃ t u, exec (.fwr 0 idx b) s = .next t ∧ exec (.frd 0 idx 0) t = .next u ∧
      u.err = false ∧ u.result = b.setWidth 32 ∧ u.frame = t.frame

/-- "PRD 0 always returns 3600 once PV = 1" and "PRD 210 always returns 450", in every state that meets the invariant
(45_host_access.md R182). -/
def Obligations.PrdReadsTheEndsOfEverySequence : Prop :=
  ∀ s : State, s.Inv → pv s = true →
    exec (.prd 0 0) s = .next (completionResponse 3600 s) ∧ exec (.prd 0 210) s = .next (completionResponse 450 s)
end

