-- ==== Sys2Proof/Laws/Decode.lean ====
section
/-! SUPPORT. The bits of encoded words, the selections and their bits, and what the reserved-bit masks test. -/

namespace Sys2Proof

/-! ### Selections -/

@[simp] theorem PwrSel.ofBits_bits (p : PwrSel) : PwrSel.ofBits p.bits = p := by cases p <;> rfl

@[simp] theorem FanSel.ofBits_bits (f : FanSel) : FanSel.ofBits f.bits = f := by cases f <;> rfl

@[simp] theorem PwrSel.bits_ofBits : ∀ b : BitVec 2, (PwrSel.ofBits b).bits = b := by decide

@[simp] theorem FanSel.bits_ofBits : ∀ b : BitVec 3, (FanSel.ofBits b).bits = b := by decide

/-! ### Fields -/

/-- Bit `i` of a field is bit `lo + i` of the word. -/
theorem getLsbD_field (w : Word) (lo len i : Nat) :
    (field w lo len).getLsbD i = (decide (i < len) && w.getLsbD (lo + i)) := by
  simp [field, BitVec.getLsbD_extractLsb']

/-- A field is the value whose bits stand there. -/
theorem field_eq_iff {w : Word} {lo len : Nat} {v : BitVec len} :
    field w lo len = v ↔ ∀ i, i < len → w.getLsbD (lo + i) = v.getLsbD i := by
  constructor
  · rintro rfl i hi
    rw [getLsbD_field, decide_eq_true hi, Bool.true_and]
  · intro h
    apply BitVec.eq_of_getLsbD_eq
    intro i hi
    rw [getLsbD_field, decide_eq_true hi, Bool.true_and, h i hi]

/-- Two words with the same OP and the same low 28 bits are equal. -/
theorem word_ext {w v : Word} (hop : opField w = opField v) (h : ∀ j, j < 28 → w.getLsbD j = v.getLsbD j) : w = v := by
  apply BitVec.eq_of_getLsbD_eq
  intro j hj
  by_cases hlow : j < 28
  · exact h j hlow
  · have hb : (opField w).getLsbD (j - 28) = (opField v).getLsbD (j - 28) := by rw [hop]
    have hj' : j - 28 < 4 := by omega
    have he : 28 + (j - 28) = j := by omega
    rw [opField, opField, getLsbD_field, getLsbD_field, decide_eq_true hj', he] at hb
    exact hb

/-! ### Bits of the operands, field by field -/

theorem getLsbD_commandBits (c : Command) (j : Nat) :
    (commandBits c).getLsbD j =
      if j < 8 then c.temp.getLsbD j
      else if j < 21 then c.rsvd.getLsbD (j - 8)
      else if j < 22 then (BitVec.ofBool c.tempV).getLsbD (j - 21)
      else if j < 25 then c.fan.bits.getLsbD (j - 22)
      else if j < 26 then (BitVec.ofBool c.ion).getLsbD (j - 25)
      else c.pwr.bits.getLsbD (j - 26) := by
  have e : (commandBits c).getLsbD j =
      BitVec.getLsbD (w := 2 + 1 + 3 + 1 + 13 + 8) (c.pwr.bits ++ BitVec.ofBool c.ion ++ c.fan.bits ++
        BitVec.ofBool c.tempV ++ c.rsvd ++ c.temp) j := rfl
  rw [e]
  simp only [BitVec.getLsbD_append]
  have h1 : j - 8 < 13 ↔ j < 21 := by omega
  have h2 : j - 21 < 1 ↔ j < 22 := by omega
  have h3 : j - 22 < 3 ↔ j < 25 := by omega
  have h4 : j - 25 < 1 ↔ j < 26 := by omega
  have h5 : j - 8 - 13 = j - 21 := by omega
  have h6 : j - 21 - 1 = j - 22 := by omega
  have h7 : j - 22 - 3 = j - 25 := by omega
  have h8 : j - 25 - 1 = j - 26 := by omega
  simp only [h1, h2, h3, h4, h5, h6, h7, h8]

/-- The bits of an upper field above a byte. -/
theorem getLsbD_above_byte {n : Nat} (x : BitVec n) (y : Byte) (j : Nat) :
    (x ++ y).getLsbD j = if j < 8 then y.getLsbD j else x.getLsbD (j - 8) :=
  BitVec.getLsbD_append

/-- The bits of formats R, W and I4: a byte field, a 4-bit field and an upper field (30_encoding.md R61). -/
theorem getLsbD_three_fields (r : BitVec 16) (k : BitVec 4) (b : Byte) (j : Nat) :
    BitVec.getLsbD (w := 28) (r ++ k ++ b) j =
      if j < 8 then b.getLsbD j else if j < 12 then k.getLsbD (j - 8) else r.getLsbD (j - 12) := by
  have e : BitVec.getLsbD (w := 28) (r ++ k ++ b) j = BitVec.getLsbD (w := 16 + 4 + 8) (r ++ k ++ b) j := rfl
  rw [e]
  simp only [BitVec.getLsbD_append]
  have h1 : j - 8 < 4 ↔ j < 12 := by omega
  have h2 : j - 8 - 4 = j - 12 := by omega
  simp only [h1, h2]

/-! ### Bits of the encoded word -/

@[simp] theorem opField_encode (i : Instr) : opField (encode i) = opcodeOf i := by
  apply BitVec.eq_of_getLsbD_eq
  intro j hj
  rw [opField, getLsbD_field, encode, BitVec.getLsbD_append]
  have h : ¬ 28 + j < 28 := by omega
  simp [h, hj]

theorem getLsbD_encode_low (i : Instr) {j : Nat} (h : j < 28) :
    (encode i).getLsbD j = (operandBits i).getLsbD j := by
  rw [encode, BitVec.getLsbD_append, if_pos h]

/-- A field of an encoded word is the operand whose bits stand there. -/
theorem field_encode {i : Instr} {lo len : Nat} {v : BitVec len} (h : lo + len ≤ 28)
    (hv : ∀ j, j < len → (operandBits i).getLsbD (lo + j) = v.getLsbD j) : field (encode i) lo len = v :=
  field_eq_iff.2 fun j hj => by rw [getLsbD_encode_low i (by omega), hv j hj]

/-- The reserved bits of an encoded format C word. -/
theorem field_command_rsvd {i : Instr} {c : Command} (h : operandBits i = commandBits c) :
    field (encode i) 8 13 = c.rsvd := by
  refine field_encode (by omega) fun j hj => ?_
  have h1 : ¬ 8 + j < 8 := by omega
  have h2 : 8 + j < 21 := by omega
  have h3 : 8 + j - 8 = j := by omega
  rw [h, getLsbD_commandBits, if_neg h1, if_pos h2, h3]

/-- The upper reserved bits of an encoded word of formats R, W and I4. -/
theorem field_upper_rsvd {i : Instr} {r : BitVec 16} {k : BitVec 4} {b : Byte} (h : operandBits i = r ++ k ++ b) :
    field (encode i) 12 16 = r := by
  refine field_encode (by omega) fun j hj => ?_
  have h1 : ¬ 12 + j < 8 := by omega
  have h2 : ¬ 12 + j < 12 := by omega
  have h3 : 12 + j - 12 = j := by omega
  rw [h, getLsbD_three_fields, if_neg h1, if_neg h2, h3]

/-- The byte field of an encoded word of formats R, W and I4. -/
theorem field_low_byte {i : Instr} {r : BitVec 16} {k : BitVec 4} {b : Byte} (h : operandBits i = r ++ k ++ b) :
    field (encode i) 0 8 = b := by
  refine field_encode (by omega) fun j hj => ?_
  rw [h, Nat.zero_add, getLsbD_three_fields, if_pos hj]

/-- The reserved bits of an encoded word of formats B and I8. -/
theorem field_above_byte {i : Instr} {r : BitVec 20} {b : Byte} (h : operandBits i = r ++ b) :
    field (encode i) 8 20 = r := by
  refine field_encode (by omega) fun j hj => ?_
  have h1 : ¬ 8 + j < 8 := by omega
  have h2 : 8 + j - 8 = j := by omega
  have e : BitVec.getLsbD (w := 28) (r ++ b) (8 + j) = (r ++ b).getLsbD (8 + j) := rfl
  rw [h, e, getLsbD_above_byte, if_neg h1, h2]

/-- The reserved bits of an encoded word of format N. -/
theorem field_all_operands {i : Instr} {r : BitVec 28} (h : operandBits i = r) : field (encode i) 0 28 = r :=
  field_encode (by omega) fun j _ => by rw [h, Nat.zero_add]

/-! ### Reserved-bit masks -/

/-- A mask of ones at one field tests that field. -/
theorem and_mask_eq_zero {w m : Word} {lo len : Nat} (hlen : lo + len ≤ 32)
    (hm : ∀ j, j < 32 → m.getLsbD j = decide (lo ≤ j ∧ j < lo + len)) :
    w &&& m = 0 ↔ field w lo len = 0 := by
  rw [field_eq_iff]
  constructor
  · intro h i hi
    have hb := congrArg (fun b => b.getLsbD (lo + i)) h
    have h1 : lo ≤ lo + i ∧ lo + i < lo + len := by omega
    simpa [BitVec.getLsbD_and, hm (lo + i) (by omega), h1] using hb
  · intro h
    apply BitVec.eq_of_getLsbD_eq
    intro j hj
    rw [BitVec.getLsbD_and, hm j hj]
    by_cases hin : lo ≤ j ∧ j < lo + len
    · have hb := h (j - lo) (by omega)
      rw [show lo + (j - lo) = j by omega] at hb
      simp [hb]
    · simp [hin]

/-- A mask that is two masks tests both. -/
theorem and_or_eq_zero {w m n : Word} : w &&& (m ||| n) = 0 ↔ w &&& m = 0 ∧ w &&& n = 0 := by
  constructor
  · intro h
    constructor <;>
    · apply BitVec.eq_of_getLsbD_eq
      intro j hj
      have hb := congrArg (fun b => b.getLsbD j) h
      simp only [BitVec.getLsbD_and, BitVec.getLsbD_or] at hb ⊢
      revert hb
      cases w.getLsbD j <;> cases m.getLsbD j <;> cases n.getLsbD j <;> simp
  · rintro ⟨h1, h2⟩
    apply BitVec.eq_of_getLsbD_eq
    intro j hj
    have hb1 := congrArg (fun b => b.getLsbD j) h1
    have hb2 := congrArg (fun b => b.getLsbD j) h2
    simp only [BitVec.getLsbD_and, BitVec.getLsbD_or] at hb1 hb2 ⊢
    revert hb1 hb2
    cases w.getLsbD j <;> cases m.getLsbD j <;> cases n.getLsbD j <;> simp

/-- RSVD_MASK of each format tests the reserved fields of 30_encoding.md R61. -/
theorem and_rsvdMask_eq_zero (w : Word) (f : Format) :
    w &&& rsvdMask f = 0 ↔
      match f with
      | .C => field w 8 13 = 0
      | .R => field w 12 16 = 0
      | .N => field w 0 28 = 0
      | .B => field w 8 20 = 0
      | .W => field w 12 16 = 0
      | .I4 => field w 12 16 = 0 ∧ field w 0 8 = 0
      | .I8 => field w 8 20 = 0 := by
  cases f with
  | C => exact and_mask_eq_zero (by decide) (by decide)
  | R => exact and_mask_eq_zero (by decide) (by decide)
  | N => exact and_mask_eq_zero (by decide) (by decide)
  | B => exact and_mask_eq_zero (by decide) (by decide)
  | W => exact and_mask_eq_zero (by decide) (by decide)
  | I4 =>
    have e : rsvdMask .I4 = 0x0FFFF000 ||| 0x000000FF := by decide
    rw [e, and_or_eq_zero]
    exact and_congr (and_mask_eq_zero (by decide) (by decide)) (and_mask_eq_zero (by decide) (by decide))
  | I8 => exact and_mask_eq_zero (by decide) (by decide)

end Sys2Proof
end

