-- ==== Sys2Proof/Laws/Memory.lean ====
section
/-! SUPPORT. What the operations of an address space do: reads after writes, and the canonical form every operation
keeps. -/

namespace Sys2Proof.Machine

variable {α : Type}

@[simp] theorem read_nil (a : Nat) : Memory.read ([] : Memory α) a = none := rfl

/-! ### One write -/

@[simp] theorem read_write_same (m : Memory α) (a : Nat) (v : α) : (m.write a v).read a = some v := by
  induction m with
  | nil => simp [Memory.write, Memory.read]
  | cons cell rest ih =>
    obtain ⟨b, u⟩ := cell
    rcases Nat.lt_trichotomy a b with h | h | h
    · simp [Memory.write, Memory.read, h]
    · simp [Memory.write, Memory.read, h]
    · have h1 : ¬ a < b := by omega
      have h2 : a ≠ b := by omega
      simp [Memory.write, Memory.read, h1, h2, h2.symm, ih]

theorem read_write_other (m : Memory α) {a c : Nat} (v : α) (h : c ≠ a) :
    (m.write a v).read c = m.read c := by
  induction m with
  | nil => simp [Memory.write, Memory.read, h.symm]
  | cons cell rest ih =>
    obtain ⟨b, u⟩ := cell
    rcases Nat.lt_trichotomy a b with h' | h' | h'
    · simp [Memory.write, Memory.read, h', h.symm]
    · subst h'
      simp [Memory.write, Memory.read, h.symm]
    · have h1 : ¬ a < b := by omega
      have h2 : a ≠ b := by omega
      rw [Memory.write, if_neg h1, if_neg h2]
      simp only [Memory.read, ih]

/-- A read after a write: the written value at its index, what was there elsewhere. -/
theorem read_write (m : Memory α) (a c : Nat) (v : α) :
    (m.write a v).read c = if c = a then some v else m.read c := by
  by_cases h : c = a
  · simp [h]
  · simp [h, read_write_other m v h]

/-! ### The canonical form -/

theorem wfFrom_mono {lo lo' size : Nat} (h : lo' ≤ lo) {m : Memory α} (hm : Memory.wfFrom lo size m = true) :
    Memory.wfFrom lo' size m = true := by
  cases m with
  | nil => rfl
  | cons cell rest =>
    simp only [Memory.wfFrom, Bool.and_eq_true, decide_eq_true_eq] at hm ⊢
    exact ⟨⟨by omega, hm.1.2⟩, hm.2⟩

theorem wfFrom_write {lo size a : Nat} {m : Memory α} (v : α) (hlo : lo ≤ a) (ha : a < size)
    (hm : Memory.wfFrom lo size m = true) : Memory.wfFrom lo size (m.write a v) = true := by
  induction m generalizing lo with
  | nil => simp [Memory.write, Memory.wfFrom, hlo, ha]
  | cons cell rest ih =>
    obtain ⟨b, u⟩ := cell
    simp only [Memory.wfFrom, Bool.and_eq_true, decide_eq_true_eq] at hm
    rcases Nat.lt_trichotomy a b with h | h | h
    · have h4 : a + 1 ≤ b := h
      simp [Memory.write, Memory.wfFrom, h, hlo, ha, hm.1.2, hm.2, h4]
    · subst h
      simp [Memory.write, Memory.wfFrom, hlo, ha, hm.2]
    · have h1 : ¬ a < b := by omega
      have h2 : a ≠ b := by omega
      simp [Memory.write, Memory.wfFrom, h1, h2, hm.1.1, hm.1.2, ih (by omega) hm.2]

/-- A write at a mapped index keeps the canonical form. -/
theorem wf_write {size a : Nat} {m : Memory α} (v : α) (ha : a < size) (hm : m.wf size = true) :
    (m.write a v).wf size = true :=
  wfFrom_write v (Nat.zero_le a) ha hm

@[simp] theorem wf_nil (size : Nat) : Memory.wf size ([] : Memory α) = true := rfl

theorem wfFrom_ofList {a size : Nat} {vs : List α} (h : a + vs.length ≤ size) :
    Memory.wfFrom a size (Memory.ofList a vs) = true := by
  induction vs generalizing a with
  | nil => rfl
  | cons v vs ih =>
    simp only [List.length_cons] at h
    simp [Memory.ofList, Memory.wfFrom, ih (show a + 1 + vs.length ≤ size by omega)]
    omega

/-- A space filled from index 0 is in canonical form. -/
theorem wf_ofList {size : Nat} {vs : List α} (h : vs.length ≤ size) : (Memory.ofList 0 vs).wf size = true :=
  wfFrom_ofList (by omega)

/-- An index the canonical form excludes holds no value. -/
theorem read_eq_none_of_wfFrom {lo size a : Nat} {m : Memory α} (hm : Memory.wfFrom lo size m = true)
    (h : a < lo ∨ size ≤ a) : m.read a = none := by
  induction m generalizing lo with
  | nil => rfl
  | cons cell rest ih =>
    obtain ⟨b, u⟩ := cell
    simp only [Memory.wfFrom, Bool.and_eq_true, decide_eq_true_eq] at hm
    have hb : b ≠ a := by omega
    simp only [Memory.read, if_neg hb]
    exact ih hm.2 (by omega)

/-! ### A whole space -/

theorem read_ofList_lt {a c : Nat} (vs : List α) (h : c < a) : (Memory.ofList a vs).read c = none := by
  induction vs generalizing a with
  | nil => rfl
  | cons v vs ih =>
    have hne : a ≠ c := by omega
    simp [Memory.ofList, Memory.read, hne, ih (show c < a + 1 by omega)]

theorem read_ofList_add (a j : Nat) (vs : List α) : (Memory.ofList a vs).read (a + j) = vs[j]? := by
  induction vs generalizing a j with
  | nil => simp [Memory.ofList]
  | cons v vs ih =>
    cases j with
    | zero => simp [Memory.ofList, Memory.read]
    | succ j =>
      have h := ih (a + 1) j
      rw [show a + 1 + j = a + (j + 1) by omega] at h
      simp [Memory.ofList, Memory.read, h]

/-- A space filled with a sequence holds its j-th value at index j. -/
@[simp] theorem read_ofList (j : Nat) (vs : List α) : (Memory.ofList 0 vs).read j = vs[j]? := by
  simpa using read_ofList_add 0 j vs

theorem fullFrom_ofList (a : Nat) (vs : List α) (size : Nat) :
    Memory.fullFrom size a (Memory.ofList a vs) = (a + vs.length == size) := by
  induction vs generalizing a with
  | nil => simp [Memory.ofList, Memory.fullFrom]
  | cons v vs ih => simp [Memory.ofList, Memory.fullFrom, ih]; omega

/-- A space filled with as many values as it has locations is full. -/
@[simp] theorem full_ofList (vs : List α) (size : Nat) :
    (Memory.ofList 0 vs).full size = (vs.length == size) := by
  simpa [Memory.full] using fullFrom_ofList 0 vs size

theorem fullFrom_eq_ofList {size a : Nat} {m : Memory α} (h : Memory.fullFrom size a m = true) :
    m = Memory.ofList a (m.map Prod.snd) ∧ a + m.length = size := by
  induction m generalizing a with
  | nil => simpa [Memory.fullFrom, Memory.ofList] using h
  | cons cell rest ih =>
    obtain ⟨b, u⟩ := cell
    simp only [Memory.fullFrom, Bool.and_eq_true, beq_iff_eq] at h
    obtain ⟨rfl, h⟩ := h
    obtain ⟨h1, h2⟩ := ih h
    refine ⟨?_, by simp; omega⟩
    simp only [List.map_cons, Memory.ofList]
    rw [← h1]

/-- A full space is the list of its values, one for each location. -/
theorem full_eq_ofList {size : Nat} {m : Memory α} (h : m.full size = true) :
    m = Memory.ofList 0 (m.map Prod.snd) ∧ m.length = size := by
  simpa using fullFrom_eq_ofList h

/-- Every location of a full space holds a value. -/
theorem read_isSome_of_full {size j : Nat} {m : Memory α} (h : m.full size = true) (hj : j < size) :
    ∃ v, m.read j = some v := by
  obtain ⟨h1, h2⟩ := full_eq_ofList h
  rw [h1, read_ofList]
  exact ⟨_, List.getElem?_eq_getElem (by simpa [h2] using hj)⟩

/-! ### Several locations at once -/

/-- The values read from index `a` on are those of the single reads. -/
theorem readFrom_eq_some {m : Memory α} {a n : Nat} {vs : List α} :
    m.readFrom a n = some vs ↔ vs.length = n ∧ ∀ j, j < n → m.read (a + j) = vs[j]? := by
  induction n generalizing a vs with
  | zero => simp [Memory.readFrom, eq_comm]
  | succ n ih =>
    have hstep : m.readFrom a (n + 1) = some vs ↔
        ∃ u us, m.read a = some u ∧ m.readFrom (a + 1) n = some us ∧ vs = u :: us := by
      simp only [Memory.readFrom]
      split
      · rename_i u us h1 h2
        simp [h1, h2, eq_comm]
      · rename_i h
        constructor
        · intro h'; cases h'
        · rintro ⟨u, us, h1, h2, -⟩
          exact (h u us h1 h2).elim
    rw [hstep]
    constructor
    · rintro ⟨u, us, h1, h2, rfl⟩
      obtain ⟨h3, h4⟩ := ih.1 h2
      refine ⟨by simp [h3], ?_⟩
      intro j hj
      cases j with
      | zero => simpa using h1
      | succ j =>
        have h5 := h4 j (by omega)
        rw [show a + 1 + j = a + (j + 1) by omega] at h5
        simpa using h5
    · rintro ⟨h1, h2⟩
      cases vs with
      | nil => simp at h1
      | cons u us =>
        refine ⟨u, us, by simpa using h2 0 (by omega), ih.2 ⟨by simpa using h1, ?_⟩, rfl⟩
        intro j hj
        have h5 := h2 (j + 1) (by omega)
        rw [show a + (j + 1) = a + 1 + j by omega] at h5
        simpa using h5

/-- Reading several locations gives no value exactly where one of them holds none. -/
theorem readFrom_eq_none {m : Memory α} {a n : Nat} :
    m.readFrom a n = none ↔ ∃ j, j < n ∧ m.read (a + j) = none := by
  induction n generalizing a with
  | zero => simp [Memory.readFrom]
  | succ n ih =>
    have key : (∃ j, j < n + 1 ∧ m.read (a + j) = none) ↔
        m.read a = none ∨ ∃ j, j < n ∧ m.read (a + 1 + j) = none := by
      constructor
      · rintro ⟨j, hj, h⟩
        cases j with
        | zero => exact .inl (by simpa using h)
        | succ j => exact .inr ⟨j, by omega, by rw [show a + 1 + j = a + (j + 1) by omega]; exact h⟩
      · rintro (h | ⟨j, hj, h⟩)
        · exact ⟨0, by omega, by simpa using h⟩
        · exact ⟨j + 1, by omega, by rw [show a + (j + 1) = a + 1 + j by omega]; exact h⟩
    rw [key, ← ih]
    simp only [Memory.readFrom]
    cases m.read a <;> cases m.readFrom (a + 1) n <;> simp

/-- A space filled with a sequence reads back as it. -/
theorem readFrom_ofList (vs : List α) : (Memory.ofList 0 vs).readFrom 0 vs.length = some vs :=
  readFrom_eq_some.2 ⟨rfl, fun j _ => by simp⟩

/-- Writing a sequence's values one location at a time gives the reads of the filled space, and elsewhere leaves what was
there: what the whole-space stores stand for (notes/assumptions/11.md). -/
theorem read_foldr_write (m : Memory α) (vs : List α) (a j : Nat) :
    ((Memory.ofList a vs).foldr (fun cell acc => acc.write cell.1 cell.2) m).read j =
      ((Memory.ofList a vs).read j).or (m.read j) := by
  induction vs generalizing a with
  | nil => simp [Memory.ofList]
  | cons v vs ih =>
    simp only [Memory.ofList, List.foldr_cons, read_write, ih, Memory.read]
    by_cases h : j = a
    · simp [h]
    · simp [h, Ne.symm h]

end Sys2Proof.Machine
end

