-- ==== Sys2Proof/Laws/State.lean ====
section
/-! SUPPORT. Each field after each update of State, so that no proof unfolds a record update. -/

namespace Sys2Proof.Machine

/-! ### The error response. -/

@[simp] theorem raise_cfg (c : Cause) (s : State) : (raise c s).cfg = s.cfg := rfl
@[simp] theorem raise_err (c : Cause) (s : State) : (raise c s).err = true := rfl
@[simp] theorem raise_cause (c : Cause) (s : State) : (raise c s).cause = c.code := rfl
@[simp] theorem raise_serr (c : Cause) (s : State) : (raise c s).serr = true := rfl
@[simp] theorem raise_result (c : Cause) (s : State) : (raise c s).result = 0 := rfl
@[simp] theorem raise_pacc (c : Cause) (s : State) : (raise c s).pacc = s.pacc := rfl
@[simp] theorem raise_frame (c : Cause) (s : State) : (raise c s).frame = s.frame := rfl
@[simp] theorem raise_pulse (c : Cause) (s : State) : (raise c s).pulse = s.pulse := rfl
@[simp] theorem raise_inbox (c : Cause) (s : State) : (raise c s).inbox = s.inbox := rfl
@[simp] theorem raise_responses (c : Cause) (s : State) : (raise c s).responses = s.responses := rfl
@[simp] theorem raise_cuts (c : Cause) (s : State) : (raise c s).cuts = s.cuts := rfl

/-! ### The completion response. -/

@[simp] theorem complete_cfg (r : Word) (s : State) : (complete r s).cfg = s.cfg := rfl
@[simp] theorem complete_err (r : Word) (s : State) : (complete r s).err = false := rfl
@[simp] theorem complete_cause (r : Word) (s : State) : (complete r s).cause = 0 := rfl
@[simp] theorem complete_serr (r : Word) (s : State) : (complete r s).serr = s.serr := rfl
@[simp] theorem complete_result (r : Word) (s : State) : (complete r s).result = r := rfl
@[simp] theorem complete_pacc (r : Word) (s : State) : (complete r s).pacc = s.pacc := rfl
@[simp] theorem complete_frame (r : Word) (s : State) : (complete r s).frame = s.frame := rfl
@[simp] theorem complete_pulse (r : Word) (s : State) : (complete r s).pulse = s.pulse := rfl
@[simp] theorem complete_inbox (r : Word) (s : State) : (complete r s).inbox = s.inbox := rfl
@[simp] theorem complete_responses (r : Word) (s : State) : (complete r s).responses = s.responses := rfl
@[simp] theorem complete_cuts (r : Word) (s : State) : (complete r s).cuts = s.cuts := rfl

/-! ### A write of PACC. -/

@[simp] theorem writePacc_cfg (s : State) (v : Byte) : (writePacc s v).cfg = s.cfg := rfl
@[simp] theorem writePacc_err (s : State) (v : Byte) : (writePacc s v).err = s.err := rfl
@[simp] theorem writePacc_cause (s : State) (v : Byte) : (writePacc s v).cause = s.cause := rfl
@[simp] theorem writePacc_serr (s : State) (v : Byte) : (writePacc s v).serr = s.serr := rfl
@[simp] theorem writePacc_result (s : State) (v : Byte) : (writePacc s v).result = s.result := rfl
@[simp] theorem writePacc_pacc (s : State) (v : Byte) : (writePacc s v).pacc = v := rfl
@[simp] theorem writePacc_frame (s : State) (v : Byte) : (writePacc s v).frame = s.frame := rfl
@[simp] theorem writePacc_pulse (s : State) (v : Byte) : (writePacc s v).pulse = s.pulse := rfl
@[simp] theorem writePacc_inbox (s : State) (v : Byte) : (writePacc s v).inbox = s.inbox := rfl
@[simp] theorem writePacc_responses (s : State) (v : Byte) : (writePacc s v).responses = s.responses := rfl
@[simp] theorem writePacc_cuts (s : State) (v : Byte) : (writePacc s v).cuts = s.cuts := rfl

/-! ### A write of one frame byte. -/

@[simp] theorem writeFrameByte_cfg (s : State) (i : Nat) (b : Byte) : (writeFrameByte s i b).cfg = s.cfg := rfl
@[simp] theorem writeFrameByte_err (s : State) (i : Nat) (b : Byte) : (writeFrameByte s i b).err = s.err := rfl
@[simp] theorem writeFrameByte_cause (s : State) (i : Nat) (b : Byte) : (writeFrameByte s i b).cause = s.cause := rfl
@[simp] theorem writeFrameByte_serr (s : State) (i : Nat) (b : Byte) : (writeFrameByte s i b).serr = s.serr := rfl
@[simp] theorem writeFrameByte_result (s : State) (i : Nat) (b : Byte) : (writeFrameByte s i b).result = s.result := rfl
@[simp] theorem writeFrameByte_pacc (s : State) (i : Nat) (b : Byte) : (writeFrameByte s i b).pacc = s.pacc := rfl
@[simp] theorem writeFrameByte_frame (s : State) (i : Nat) (b : Byte) : (writeFrameByte s i b).frame = s.frame.write i b := rfl
@[simp] theorem writeFrameByte_pulse (s : State) (i : Nat) (b : Byte) : (writeFrameByte s i b).pulse = s.pulse := rfl
@[simp] theorem writeFrameByte_inbox (s : State) (i : Nat) (b : Byte) : (writeFrameByte s i b).inbox = s.inbox := rfl
@[simp] theorem writeFrameByte_responses (s : State) (i : Nat) (b : Byte) : (writeFrameByte s i b).responses = s.responses := rfl
@[simp] theorem writeFrameByte_cuts (s : State) (i : Nat) (b : Byte) : (writeFrameByte s i b).cuts = s.cuts := rfl

/-! ### A write of the whole frame. -/

@[simp] theorem storeFrame_cfg (s : State) (F : List Byte) : (storeFrame s F).cfg = s.cfg := rfl
@[simp] theorem storeFrame_err (s : State) (F : List Byte) : (storeFrame s F).err = s.err := rfl
@[simp] theorem storeFrame_cause (s : State) (F : List Byte) : (storeFrame s F).cause = s.cause := rfl
@[simp] theorem storeFrame_serr (s : State) (F : List Byte) : (storeFrame s F).serr = s.serr := rfl
@[simp] theorem storeFrame_result (s : State) (F : List Byte) : (storeFrame s F).result = s.result := rfl
@[simp] theorem storeFrame_pacc (s : State) (F : List Byte) : (storeFrame s F).pacc = s.pacc := rfl
@[simp] theorem storeFrame_frame (s : State) (F : List Byte) : (storeFrame s F).frame = Memory.ofList 0 F := rfl
@[simp] theorem storeFrame_pulse (s : State) (F : List Byte) : (storeFrame s F).pulse = s.pulse := rfl
@[simp] theorem storeFrame_inbox (s : State) (F : List Byte) : (storeFrame s F).inbox = s.inbox := rfl
@[simp] theorem storeFrame_responses (s : State) (F : List Byte) : (storeFrame s F).responses = s.responses := rfl
@[simp] theorem storeFrame_cuts (s : State) (F : List Byte) : (storeFrame s F).cuts = s.cuts := rfl

/-! ### A write of the whole pulse buffer. -/

@[simp] theorem storePulse_cfg (s : State) (S : List Nat) : (storePulse s S).cfg = s.cfg := rfl
@[simp] theorem storePulse_err (s : State) (S : List Nat) : (storePulse s S).err = s.err := rfl
@[simp] theorem storePulse_cause (s : State) (S : List Nat) : (storePulse s S).cause = s.cause := rfl
@[simp] theorem storePulse_serr (s : State) (S : List Nat) : (storePulse s S).serr = s.serr := rfl
@[simp] theorem storePulse_result (s : State) (S : List Nat) : (storePulse s S).result = s.result := rfl
@[simp] theorem storePulse_pacc (s : State) (S : List Nat) : (storePulse s S).pacc = s.pacc := rfl
@[simp] theorem storePulse_frame (s : State) (S : List Nat) : (storePulse s S).frame = s.frame := rfl
@[simp] theorem storePulse_pulse (s : State) (S : List Nat) : (storePulse s S).pulse = Memory.ofList 0 (S.map (BitVec.ofNat 32)) := rfl
@[simp] theorem storePulse_inbox (s : State) (S : List Nat) : (storePulse s S).inbox = s.inbox := rfl
@[simp] theorem storePulse_responses (s : State) (S : List Nat) : (storePulse s S).responses = s.responses := rfl
@[simp] theorem storePulse_cuts (s : State) (S : List Nat) : (storePulse s S).cuts = s.cuts := rfl

/-! ### Reset. -/

@[simp] theorem resetBlock_cfg (s : State) : (resetBlock s).cfg = s.cfg := rfl
@[simp] theorem resetBlock_err (s : State) : (resetBlock s).err = false := rfl
@[simp] theorem resetBlock_cause (s : State) : (resetBlock s).cause = 0 := rfl
@[simp] theorem resetBlock_serr (s : State) : (resetBlock s).serr = false := rfl
@[simp] theorem resetBlock_result (s : State) : (resetBlock s).result = 0 := rfl
@[simp] theorem resetBlock_pacc (s : State) : (resetBlock s).pacc = 0 := rfl
@[simp] theorem resetBlock_frame (s : State) : (resetBlock s).frame = [] := rfl
@[simp] theorem resetBlock_pulse (s : State) : (resetBlock s).pulse = [] := rfl
@[simp] theorem resetBlock_inbox (s : State) : (resetBlock s).inbox = s.inbox := rfl
@[simp] theorem resetBlock_responses (s : State) : (resetBlock s).responses = s.responses := rfl
@[simp] theorem resetBlock_cuts (s : State) : (resetBlock s).cuts = s.cuts := rfl

/-! ### A response given. -/

@[simp] theorem giveResponse_cfg (s : State) : (giveResponse s).cfg = s.cfg := rfl
@[simp] theorem giveResponse_err (s : State) : (giveResponse s).err = s.err := rfl
@[simp] theorem giveResponse_cause (s : State) : (giveResponse s).cause = s.cause := rfl
@[simp] theorem giveResponse_serr (s : State) : (giveResponse s).serr = s.serr := rfl
@[simp] theorem giveResponse_result (s : State) : (giveResponse s).result = s.result := rfl
@[simp] theorem giveResponse_pacc (s : State) : (giveResponse s).pacc = s.pacc := rfl
@[simp] theorem giveResponse_frame (s : State) : (giveResponse s).frame = s.frame := rfl
@[simp] theorem giveResponse_pulse (s : State) : (giveResponse s).pulse = s.pulse := rfl
@[simp] theorem giveResponse_inbox (s : State) : (giveResponse s).inbox = s.inbox := rfl
@[simp] theorem giveResponse_responses (s : State) : (giveResponse s).responses = s.responses ++ [Response.mk (stat s) s.result] := rfl
@[simp] theorem giveResponse_cuts (s : State) : (giveResponse s).cuts = s.cuts := rfl

/-! ### A free value used. -/

@[simp] theorem countCut_cfg (s : State) : (countCut s).cfg = s.cfg := rfl
@[simp] theorem countCut_err (s : State) : (countCut s).err = s.err := rfl
@[simp] theorem countCut_cause (s : State) : (countCut s).cause = s.cause := rfl
@[simp] theorem countCut_serr (s : State) : (countCut s).serr = s.serr := rfl
@[simp] theorem countCut_result (s : State) : (countCut s).result = s.result := rfl
@[simp] theorem countCut_pacc (s : State) : (countCut s).pacc = s.pacc := rfl
@[simp] theorem countCut_frame (s : State) : (countCut s).frame = s.frame := rfl
@[simp] theorem countCut_pulse (s : State) : (countCut s).pulse = s.pulse := rfl
@[simp] theorem countCut_inbox (s : State) : (countCut s).inbox = s.inbox := rfl
@[simp] theorem countCut_responses (s : State) : (countCut s).responses = s.responses := rfl
@[simp] theorem countCut_cuts (s : State) : (countCut s).cuts = s.cuts + 1 := rfl

/-! ### The host's actions taken. -/

@[simp] theorem withInbox_cfg (s : State) (rest : List HostAction) : (withInbox s rest).cfg = s.cfg := rfl
@[simp] theorem withInbox_err (s : State) (rest : List HostAction) : (withInbox s rest).err = s.err := rfl
@[simp] theorem withInbox_cause (s : State) (rest : List HostAction) : (withInbox s rest).cause = s.cause := rfl
@[simp] theorem withInbox_serr (s : State) (rest : List HostAction) : (withInbox s rest).serr = s.serr := rfl
@[simp] theorem withInbox_result (s : State) (rest : List HostAction) : (withInbox s rest).result = s.result := rfl
@[simp] theorem withInbox_pacc (s : State) (rest : List HostAction) : (withInbox s rest).pacc = s.pacc := rfl
@[simp] theorem withInbox_frame (s : State) (rest : List HostAction) : (withInbox s rest).frame = s.frame := rfl
@[simp] theorem withInbox_pulse (s : State) (rest : List HostAction) : (withInbox s rest).pulse = s.pulse := rfl
@[simp] theorem withInbox_inbox (s : State) (rest : List HostAction) : (withInbox s rest).inbox = rest := rfl
@[simp] theorem withInbox_responses (s : State) (rest : List HostAction) : (withInbox s rest).responses = s.responses := rfl
@[simp] theorem withInbox_cuts (s : State) (rest : List HostAction) : (withInbox s rest).cuts = s.cuts := rfl

/-! ### A word presented. -/

@[simp] theorem present_cfg (s : State) (w : Word) : (present s w).cfg = s.cfg := rfl
@[simp] theorem present_err (s : State) (w : Word) : (present s w).err = s.err := rfl
@[simp] theorem present_cause (s : State) (w : Word) : (present s w).cause = s.cause := rfl
@[simp] theorem present_serr (s : State) (w : Word) : (present s w).serr = s.serr := rfl
@[simp] theorem present_result (s : State) (w : Word) : (present s w).result = s.result := rfl
@[simp] theorem present_pacc (s : State) (w : Word) : (present s w).pacc = s.pacc := rfl
@[simp] theorem present_frame (s : State) (w : Word) : (present s w).frame = s.frame := rfl
@[simp] theorem present_pulse (s : State) (w : Word) : (present s w).pulse = s.pulse := rfl
@[simp] theorem present_inbox (s : State) (w : Word) : (present s w).inbox = .word w :: s.inbox := rfl
@[simp] theorem present_responses (s : State) (w : Word) : (present s w).responses = s.responses := rfl
@[simp] theorem present_cuts (s : State) (w : Word) : (present s w).cuts = s.cuts := rfl

end Sys2Proof.Machine
end

