-- ==== Sys2Proof/Laws/Units.lean ====
section
/-! SUPPORT. What the pure units and the operand checks can answer, said once each. -/

namespace Sys2Proof.Machine

/-! ### Bits -/

/-- Bit `i` of `bitsOf f n` is `f i`. -/
theorem getLsbD_bitsOf (f : Nat → Bool) (n i : Nat) : (bitsOf f n).getLsbD i = (decide (i < n) && f i) := by
  induction n with
  | zero => simp [bitsOf]
  | succ n ih =>
    rw [bitsOf, BitVec.getLsbD_cons, ih]
    by_cases h : i = n
    · simp [h]
    · by_cases h' : i < n
      · simp [h, h', Nat.lt_succ_of_lt h']
      · have h'' : ¬ i < n + 1 := by omega
        simp [h, h', h'']

/-- Bit `i` of a byte after one of its bits is set. -/
theorem getLsbD_setBit (r : Byte) (j i : Nat) (b : Bool) (hj : j < 8) :
    (setBit r j b).getLsbD i = (r.getLsbD i || (decide (i = j) && b)) := by
  by_cases h : i < 8
  · by_cases h1 : i = j
    · subst h1; cases b <;> simp [setBit, h]
    · by_cases h2 : i < j
      · cases b <;> simp [setBit, h, h1, h2]
      · have h3 : i - j ≠ 0 := by omega
        cases b <;> simp [setBit, h, h1, h2, h3]
  · have h1 : i ≠ j := by omega
    simp [BitVec.getLsbD_of_ge _ i (by omega : 8 ≤ i), h1]

/-! ### Operand checks -/

@[simp] theorem checkReserved_zero (n : Nat) : checkReserved (0#n) = .ok () := by simp [checkReserved]

/-- The reserved bits pass exactly where they are 0, and else raise RSVD. -/
theorem checkReserved_of_ne {n : Nat} {r : BitVec n} (h : r ≠ 0) : checkReserved r = .error .rsvd :=
  if_neg h

theorem checkReserved_cases {n : Nat} (r : BitVec n) :
    (r = 0 ∧ checkReserved r = .ok ()) ∨ (r ≠ 0 ∧ checkReserved r = .error .rsvd) := by
  by_cases h : r = 0
  · exact .inl ⟨h, by simp [checkReserved, h]⟩
  · exact .inr ⟨h, checkReserved_of_ne h⟩

theorem countOperand_cases (k : BitVec 4) :
    (k.toNat ≤ 8 ∧ countOperand k = .ok k.toNat) ∨ (8 < k.toNat ∧ countOperand k = .error .revWidth) := by
  by_cases h : 8 < k.toNat
  · exact .inr ⟨h, by simp [countOperand, h]⟩
  · exact .inl ⟨by omega, by simp [countOperand, h]⟩

theorem frameIndexOperand_cases (idx : BitVec 4) :
    (idx.toNat ≤ 12 ∧ frameIndexOperand idx = .ok idx.toNat) ∨
      (12 < idx.toNat ∧ frameIndexOperand idx = .error .indexRange) := by
  by_cases h : 12 < idx.toNat
  · exact .inr ⟨h, by simp [frameIndexOperand, h]⟩
  · exact .inl ⟨by omega, by simp [frameIndexOperand, h]⟩

theorem pulseIndexOperand_cases (pidx : BitVec 8) :
    (pidx.toNat ≤ 210 ∧ pulseIndexOperand pidx = .ok pidx.toNat) ∨
      (210 < pidx.toNat ∧ pulseIndexOperand pidx = .error .indexRange) := by
  by_cases h : 210 < pidx.toNat
  · exact .inr ⟨h, by simp [pulseIndexOperand, h]⟩
  · exact .inl ⟨by omega, by simp [pulseIndexOperand, h]⟩

/-- A fan selection gives its byte or one of the two fan errors. -/
theorem encFan_error {sel : FanSel} {e : Cause} (h : encFan sel = .error e) :
    e = .fanMissing ∨ e = .fanUnrecognized := by
  cases sel <;> simp [encFan, fanCode, Except.map] at h <;> simp [← h]

/-- A temperature gives its code or TEMP_RANGE. -/
theorem encTemp_error {cfg : Config} {t : Int} {e : Cause} (h : encTemp cfg t = .error e) : e = .tempRange := by
  unfold encTemp at h
  split at h
  · cases h
  · split at h
    · cases h; rfl
    · cases h

/-! ### Frames -/

/-- buildFrame answers the frame of its variable bytes, or an error that is not FRAME_LENGTH. -/
theorem buildFrame_cases (cfg : Config) (power : Bool) (t : Int) (sel : FanSel) (ion : Bool) :
    (∃ b4 b6, temperatureByte cfg power t = .ok b4 ∧ fanByte cfg power sel = .ok b6 ∧
      buildFrame cfg power t sel ion = .ok (frameBody b4 (encPower power) b6 (ionByte ion) ++
        [parityByte (frameBody b4 (encPower power) b6 (ionByte ion))])) ∨
    (∃ e, e ≠ .frameLength ∧ buildFrame cfg power t sel ion = .error e) := by
  cases h4 : temperatureByte cfg power t with
  | error e =>
    refine .inr ⟨e, ?_, by simp [buildFrame, h4, bind, Except.bind]⟩
    unfold temperatureByte at h4
    split at h4
    · cases h : encTemp cfg t with
      | error e' =>
        rw [h] at h4
        obtain rfl : e' = e := by simpa [Except.map] using h4
        rw [encTemp_error h]; decide
      | ok code => rw [h] at h4; simp [Except.map] at h4
    · cases h4
  | ok b4 =>
    cases h6 : fanByte cfg power sel with
    | error e =>
      refine .inr ⟨e, ?_, by simp [buildFrame, h4, h6, bind, Except.bind]⟩
      unfold fanByte at h6
      split at h6
      · rcases encFan_error h6 with rfl | rfl <;> decide
      · cases h6
    | ok b6 =>
      exact .inl ⟨b4, b6, rfl, rfl, by simp [buildFrame, h4, h6, bind, Except.bind, pure, Except.pure]⟩

/-- commandFrame answers buildFrame's frame once the power selection and the temperature pass, or an error that is not
FRAME_LENGTH. -/
theorem commandFrame_cases (cfg : Config) (c : Command) :
    (∃ power F, c.rsvd = 0 ∧ powerOperand c.pwr = .ok power ∧ (power = true → c.tempV = true) ∧
      buildFrame cfg power (temperatureOperand c) c.fan c.ion = .ok F ∧ commandFrame cfg c = .ok F) ∨
    (∃ e, e ≠ .frameLength ∧ commandFrame cfg c = .error e) := by
  rcases checkReserved_cases c.rsvd with ⟨h0, h1⟩ | ⟨-, h1⟩
  · cases hp : powerOperand c.pwr with
    | error e =>
      refine .inr ⟨e, ?_, by simp [commandFrame, h1, hp, bind, Except.bind]⟩
      cases hc : c.pwr <;> simp [hc, powerOperand] at hp <;> subst hp <;> decide
    | ok power =>
      by_cases ht : (power && !c.tempV) = true
      · exact .inr ⟨.tempMissing, by decide, by
          simp [commandFrame, h1, hp, bind, Except.bind, checkTemperatureGiven, ht]⟩
      · have ht' : checkTemperatureGiven power c.tempV = .ok () := by simp [checkTemperatureGiven, ht]
        have hc : commandFrame cfg c = buildFrame cfg power (temperatureOperand c) c.fan c.ion := by
          simp [commandFrame, h1, hp, bind, Except.bind, ht']
        rcases buildFrame_cases cfg power (temperatureOperand c) c.fan c.ion with ⟨b4, b6, -, -, hF⟩ | ⟨e, he, hF⟩
        · exact .inl ⟨power, _, h0, rfl, by intro h; simpa [h] using ht, hF, hc.trans hF⟩
        · exact .inr ⟨e, he, hc.trans hF⟩
  · exact .inr ⟨.rsvd, by decide, by simp [commandFrame, h1, bind, Except.bind]⟩

/-- A built frame has 13 bytes. -/
theorem length_commandFrame {cfg : Config} {c : Command} {F : List Byte} (h : commandFrame cfg c = .ok F) :
    F.length = frameLen := by
  rcases commandFrame_cases cfg c with ⟨power, F', -, -, -, hb, hc⟩ | ⟨e, -, he⟩
  · rcases buildFrame_cases cfg power (temperatureOperand c) c.fan c.ion with ⟨b4, b6, -, -, hF⟩ | ⟨e, -, he⟩
    · rw [hb] at hF
      rw [hc] at h
      cases h; cases hF
      rfl
    · rw [hb] at he; cases he
  · rw [he] at h; cases h

/-- A frame is read from 13 locations that hold values. -/
theorem readFrame_eq_ok {s : State} {F : List Byte} :
    readFrame s = .ok F ↔ F.length = frameLen ∧ ∀ i, i < frameLen → s.frame.read i = F[i]? := by
  have h := readFrom_eq_some (m := s.frame) (a := 0) (n := frameLen) (vs := F)
  simp only [Nat.zero_add] at h
  rw [← h, readFrame]
  cases s.frame.readFrom 0 frameLen <;> simp [valueOrUnwritten]

/-- ENCODE finds UNWRITTEN exactly where a frame byte holds no value. -/
theorem readFrame_eq_error {s : State} {e : Cause} :
    readFrame s = .error e ↔ e = .unwritten ∧ ∃ i, i < frameLen ∧ s.frame.read i = none := by
  have h := readFrom_eq_none (m := s.frame) (a := 0) (n := frameLen)
  simp only [Nat.zero_add] at h
  rw [← h, readFrame]
  cases s.frame.readFrom 0 frameLen <;> simp [valueOrUnwritten, eq_comm]

/-- The frame an ENCODE reads after a frame is stored is that frame. -/
theorem readFrame_storeFrame (s : State) {F : List Byte} (h : F.length = frameLen) :
    readFrame (storeFrame s F) = .ok F :=
  readFrame_eq_ok.2 ⟨h, fun i _ => by simp [storeFrame]⟩

/-! ### Pulse sequences -/

@[simp] theorem length_bitDurations (b : Bool) : (bitDurations b).length = 2 := by cases b <;> rfl

@[simp] theorem length_byteDurations (x : Byte) : (byteDurations x).length = 16 := by simp [byteDurations]

theorem length_flatMap_byteDurations (F : List Byte) : (F.flatMap byteDurations).length = 16 * F.length := by
  induction F with
  | nil => rfl
  | cons x F ih => simp [ih]; omega

/-- Durations 16i to 16i + 15 of a byte sequence are those of its byte i. -/
theorem getElem?_flatMap_byteDurations (F : List Byte) (i r : Nat) (hr : r < 16) :
    (F.flatMap byteDurations)[16 * i + r]? = F[i]?.bind fun x => (byteDurations x)[r]? := by
  induction F generalizing i with
  | nil => simp
  | cons x F ih =>
    cases i with
    | zero => rw [List.flatMap_cons, List.getElem?_append_left (by simpa using hr)]; simp
    | succ i =>
      rw [List.flatMap_cons, List.getElem?_append_right (by simp; omega), length_byteDurations,
        show 16 * (i + 1) + r - 16 = 16 * i + r by omega, ih]
      simp

/-- The two durations of bit b of a byte (44_ir_pulse_sequence_generator.md R161). -/
theorem getElem?_byteDurations (x : Byte) {b : Nat} (hb : b ≤ 7) :
    (byteDurations x)[2 * (7 - b)]? = some (if x.getLsbD b then 3 * tUs else tUs) ∧
      (byteDurations x)[2 * (7 - b) + 1]? = some tUs := by
  have e : byteDurations x = [if x.getLsbD 7 then 3 * tUs else tUs, tUs, if x.getLsbD 6 then 3 * tUs else tUs, tUs,
      if x.getLsbD 5 then 3 * tUs else tUs, tUs, if x.getLsbD 4 then 3 * tUs else tUs, tUs,
      if x.getLsbD 3 then 3 * tUs else tUs, tUs, if x.getLsbD 2 then 3 * tUs else tUs, tUs,
      if x.getLsbD 1 then 3 * tUs else tUs, tUs, if x.getLsbD 0 then 3 * tUs else tUs, tUs] := by
    have hbit : ∀ b : Bool, bitDurations b = [if b then 3 * tUs else tUs, tUs] := by intro b; cases b <;> rfl
    simp only [byteDurations, hbit, List.flatMap_cons, List.flatMap_nil, List.cons_append, List.nil_append]
  rw [e]
  rcases b with _ | _ | _ | _ | _ | _ | _ | _ | b
  all_goals first | exact ⟨rfl, rfl⟩ | omega

/-- encodePulses answers the sequence of a 13-byte input, and FRAME_LENGTH for any other. -/
theorem encodePulses_of_length {F : List Byte} (h : F.length = frameLen) :
    encodePulses F = .ok ([8 * tUs, 4 * tUs, tUs] ++ F.flatMap byteDurations) := by
  simp [encodePulses, h]

theorem length_encodePulses {F : List Byte} {S : List Nat} (h : encodePulses F = .ok S) :
    F.length = frameLen ∧ S.length = pulseLen := by
  unfold encodePulses at h
  split at h
  · rename_i hF
    cases h
    refine ⟨hF, ?_⟩
    rw [List.length_append, length_flatMap_byteDurations, hF]
    rfl
  · cases h

/-! ### Parity -/

theorem foldl_xor (B : List Byte) (a : Byte) :
    B.foldl (fun acc b => acc ^^^ b) a = a ^^^ B.foldl (fun acc b => acc ^^^ b) 0 := by
  induction B generalizing a with
  | nil => simp
  | cons b B ih => simp only [List.foldl_cons]; rw [ih, ih (0 ^^^ b)]; simp [BitVec.xor_assoc]

@[simp] theorem xorBytes_nil : xorBytes [] = 0 := rfl

@[simp] theorem xorBytes_cons (b : Byte) (B : List Byte) : xorBytes (b :: B) = b ^^^ xorBytes B := by
  have h := foldl_xor B (0#8 ^^^ b)
  simpa [xorBytes] using h

@[simp] theorem xorBytes_append (B C : List Byte) : xorBytes (B ++ C) = xorBytes B ^^^ xorBytes C := by
  induction B with
  | nil => simp
  | cons b B ih => simp [ih, BitVec.xor_assoc]

end Sys2Proof.Machine
end

