-- ==== Sys2Proof/Laws/Ops.lean ====
section
/-! SUPPORT. What the shared operations, and one operation of the block, can do: each said once. -/

namespace Sys2Proof.Machine

@[simp] theorem answer_error (s : State) (c : Cause) : answer s (.error c) = .next (raise c s) := rfl

@[simp] theorem answer_ok (s t : State) (r : Word) : answer s (.ok (t, r)) = .next (complete r t) := rfl

/-- The end of an operation is an error response or a completion response. -/
theorem answer_eq_next {s t : State} {a : Except Cause (State × Word)} :
    answer s a = .next t ↔
      (∃ c, a = .error c ∧ t = raise c s) ∨ (∃ u r, a = .ok (u, r) ∧ t = complete r u) := by
  rcases a with c | ⟨u, r⟩ <;> simp [eq_comm]

/-- A response is a next state, never a stop. -/
theorem answer_answers (s : State) (a : Except Cause (State × Word)) : ∃ t, answer s a = .next t := by
  rcases a with c | ⟨u, r⟩
  · exact ⟨_, rfl⟩
  · exact ⟨_, rfl⟩

@[simp] theorem andThen_next (f : State → State) (t : State) : andThen f (.next t) = .next (f t) := rfl

theorem andThen_eq_next {f : State → State} {o : Answer} {t : State} :
    andThen f o = .next t ↔ ∃ u, o = .next u ∧ t = f u := by
  cases o <;> simp [andThen, eq_comm]

/-- Bit `i` of FV is 1 exactly where FRAME[i] holds a value. -/
theorem getLsbD_fv (s : State) (i : Nat) : (fv s).getLsbD i = (decide (i < 13) && frameValid s i) :=
  getLsbD_bitsOf _ _ _

/-- What an operation writes when it completes, before its response: `u` is the state written from `s`. -/
def Writes (i : Instr) (s u : State) : Prop :=
  match i with
  | .pclr _ => u = writePacc s 0
  | .pxor _ b => u = writePacc s (s.pacc ^^^ b)
  | .build c => ∃ F, commandFrame s.cfg c = .ok F ∧ u = storeFrame s F
  | .encode _ => ∃ F S, readFrame s = .ok F ∧ encodePulses F = .ok S ∧ u = storePulse s S
  | .send c => ∃ F S, commandFrame s.cfg c = .ok F ∧ encodePulses F = .ok S ∧ u = storePulse (storeFrame s F) S
  | .fwr _ idx b => idx.toNat ≤ 12 ∧ u = writeFrameByte s idx.toNat b
  | .rev _ _ _ => u = s
  | .enct _ => u = s
  | .encf _ => u = s
  | .encp _ => u = s
  | .enci _ => u = s
  | .pfold _ => u = s
  | .frd _ _ _ => u = s
  | .prd _ _ => u = s

/-- What one operation can do: an error response that is not FRAME_LENGTH and leaves the rest as it was, or the
completion of exactly its own writes. -/
theorem exec_cases (i : Instr) (s : State) :
    (∃ c, c ≠ .frameLength ∧ exec i s = .next (raise c s)) ∨
      (∃ u r, Writes i s u ∧ exec i s = .next (complete r u)) := by
  cases i with
  | rev rsvd k n =>
    rcases checkReserved_cases rsvd with ⟨-, h⟩ | ⟨-, h⟩
    · rcases countOperand_cases k with ⟨-, hk⟩ | ⟨-, hk⟩
      · exact .inr ⟨s, zext (reverse n k.toNat), rfl, by simp [exec, execRev, h, hk, bind, Except.bind, pure, Except.pure]⟩
      · exact .inl ⟨.revWidth, by decide, by simp [exec, execRev, h, hk, bind, Except.bind]⟩
    · exact .inl ⟨.rsvd, by decide, by simp [exec, execRev, h, bind, Except.bind]⟩
  | enct c =>
    rcases checkReserved_cases c.rsvd with ⟨-, h⟩ | ⟨-, h⟩
    · cases ht : encTemp s.cfg (temperatureOperand c) with
      | error e =>
        exact .inl ⟨e, by rw [encTemp_error ht]; decide, by simp [exec, execEnct, h, ht, bind, Except.bind]⟩
      | ok code =>
        exact .inr ⟨s, zext code, rfl, by simp [exec, execEnct, h, ht, bind, Except.bind, pure, Except.pure]⟩
    · exact .inl ⟨.rsvd, by decide, by simp [exec, execEnct, h, bind, Except.bind]⟩
  | encf c =>
    rcases checkReserved_cases c.rsvd with ⟨-, h⟩ | ⟨-, h⟩
    · cases hf : encFan c.fan with
      | error e =>
        exact .inl ⟨e, by rcases encFan_error hf with rfl | rfl <;> decide, by
          simp [exec, execEncf, h, hf, bind, Except.bind]⟩
      | ok byte =>
        exact .inr ⟨s, zext byte, rfl, by simp [exec, execEncf, h, hf, bind, Except.bind, pure, Except.pure]⟩
    · exact .inl ⟨.rsvd, by decide, by simp [exec, execEncf, h, bind, Except.bind]⟩
  | encp c =>
    rcases checkReserved_cases c.rsvd with ⟨-, h⟩ | ⟨-, h⟩
    · cases hp : powerOperand c.pwr with
      | error e =>
        refine .inl ⟨e, ?_, by simp [exec, execEncp, h, hp, bind, Except.bind]⟩
        cases hc : c.pwr <;> simp [hc, powerOperand] at hp <;> subst hp <;> decide
      | ok power =>
        exact .inr ⟨s, zext (encPower power), rfl, by
          simp [exec, execEncp, h, hp, bind, Except.bind, pure, Except.pure]⟩
    · exact .inl ⟨.rsvd, by decide, by simp [exec, execEncp, h, bind, Except.bind]⟩
  | enci c =>
    rcases checkReserved_cases c.rsvd with ⟨-, h⟩ | ⟨-, h⟩
    · exact .inr ⟨s, zext (encIon c.ion), rfl, by simp [exec, execEnci, h, bind, Except.bind, pure, Except.pure]⟩
    · exact .inl ⟨.rsvd, by decide, by simp [exec, execEnci, h, bind, Except.bind]⟩
  | pclr rsvd =>
    rcases checkReserved_cases rsvd with ⟨-, h⟩ | ⟨-, h⟩
    · exact .inr ⟨_, 0, rfl, by simp [exec, execPclr, h, bind, Except.bind, pure, Except.pure]⟩
    · exact .inl ⟨.rsvd, by decide, by simp [exec, execPclr, h, bind, Except.bind]⟩
  | pxor rsvd b =>
    rcases checkReserved_cases rsvd with ⟨-, h⟩ | ⟨-, h⟩
    · exact .inr ⟨_, zext (s.pacc ^^^ b), rfl, by simp [exec, execPxor, h, bind, Except.bind, pure, Except.pure]⟩
    · exact .inl ⟨.rsvd, by decide, by simp [exec, execPxor, h, bind, Except.bind]⟩
  | pfold rsvd =>
    rcases checkReserved_cases rsvd with ⟨-, h⟩ | ⟨-, h⟩
    · exact .inr ⟨s, zext (nibbleFold s.pacc), rfl, by
        simp [exec, execPfold, h, bind, Except.bind, pure, Except.pure]⟩
    · exact .inl ⟨.rsvd, by decide, by simp [exec, execPfold, h, bind, Except.bind]⟩
  | build c =>
    rcases commandFrame_cases s.cfg c with ⟨power, F, -, -, -, -, hF⟩ | ⟨e, he, hF⟩
    · exact .inr ⟨storeFrame s F, zext (F.getD 12 0), ⟨F, hF, rfl⟩, by
        simp [exec, execBuild, hF, bind, Except.bind, pure, Except.pure]⟩
    · exact .inl ⟨e, he, by simp [exec, execBuild, hF, bind, Except.bind]⟩
  | encode rsvd =>
    rcases checkReserved_cases rsvd with ⟨-, h⟩ | ⟨-, h⟩
    · cases hF : readFrame s with
      | error e =>
        exact .inl ⟨e, by rw [(readFrame_eq_error.1 hF).1]; decide, by
          simp [exec, execEncode, h, hF, bind, Except.bind]⟩
      | ok F =>
        have hS := encodePulses_of_length (readFrame_eq_ok.1 hF).1
        exact .inr ⟨_, 211, ⟨F, _, hF, hS, rfl⟩, by
          simp [exec, execEncode, h, hF, hS, bind, Except.bind, pure, Except.pure]⟩
    · exact .inl ⟨.rsvd, by decide, by simp [exec, execEncode, h, bind, Except.bind]⟩
  | send c =>
    rcases commandFrame_cases s.cfg c with ⟨power, F, -, -, -, -, hF⟩ | ⟨e, he, hF⟩
    · have hS := encodePulses_of_length (length_commandFrame hF)
      exact .inr ⟨_, 211, ⟨F, _, hF, hS, rfl⟩, by
        simp [exec, execSend, hF, hS, bind, Except.bind, pure, Except.pure]⟩
    · exact .inl ⟨e, he, by simp [exec, execSend, hF, bind, Except.bind]⟩
  | fwr rsvd idx b =>
    rcases checkReserved_cases rsvd with ⟨-, h⟩ | ⟨-, h⟩
    · rcases frameIndexOperand_cases idx with ⟨hi, hk⟩ | ⟨-, hk⟩
      · exact .inr ⟨_, 0, ⟨hi, rfl⟩, by simp [exec, execFwr, h, hk, bind, Except.bind, pure, Except.pure]⟩
      · exact .inl ⟨.indexRange, by decide, by simp [exec, execFwr, h, hk, bind, Except.bind]⟩
    · exact .inl ⟨.rsvd, by decide, by simp [exec, execFwr, h, bind, Except.bind]⟩
  | frd rsvd idx rsvdLow =>
    rcases checkReserved_cases (rsvd ++ rsvdLow) with ⟨-, h⟩ | ⟨-, h⟩
    · rcases frameIndexOperand_cases idx with ⟨hi, hk⟩ | ⟨-, hk⟩
      · cases hv : s.frame.read idx.toNat with
        | none =>
          exact .inl ⟨.unwritten, by decide, by simp [exec, execFrd, h, hk, hv, valueOrUnwritten, bind, Except.bind]⟩
        | some b =>
          exact .inr ⟨s, zext b, rfl, by
            simp [exec, execFrd, h, hk, hv, valueOrUnwritten, bind, Except.bind, pure, Except.pure]⟩
      · exact .inl ⟨.indexRange, by decide, by simp [exec, execFrd, h, hk, bind, Except.bind]⟩
    · exact .inl ⟨.rsvd, by decide, by simp [exec, execFrd, h, bind, Except.bind]⟩
  | prd rsvd pidx =>
    rcases checkReserved_cases rsvd with ⟨-, h⟩ | ⟨-, h⟩
    · rcases pulseIndexOperand_cases pidx with ⟨hi, hk⟩ | ⟨-, hk⟩
      · cases hv : readPulse s pidx.toNat with
        | error e =>
          refine .inl ⟨e, ?_, by simp [exec, execPrd, h, hk, hv, bind, Except.bind]⟩
          unfold readPulse at hv
          split at hv
          · cases hr : s.pulse.read pidx.toNat <;> simp [hr, valueOrUnwritten] at hv
            subst hv; decide
          · cases hv; decide
        | ok v =>
          exact .inr ⟨s, v, rfl, by simp [exec, execPrd, h, hk, hv, bind, Except.bind, pure, Except.pure]⟩
      · exact .inl ⟨.indexRange, by decide, by simp [exec, execPrd, h, hk, bind, Except.bind]⟩
    · exact .inl ⟨.rsvd, by decide, by simp [exec, execPrd, h, bind, Except.bind]⟩

/-- What performing a word can do: as `exec_cases`, and ILLEGAL_OP for a word that spells no operation. -/
theorem performWord_cases (w : Word) (s : State) :
    (∃ c, c ≠ .frameLength ∧ performWord w s = .next (raise c s)) ∨
      (∃ i u r, decode w = .ok i ∧ Writes i s u ∧ performWord w s = .next (complete r u)) := by
  unfold performWord
  cases h : decode w with
  | error e => cases e; exact .inl ⟨.illegalOp, by decide, rfl⟩
  | ok i =>
    rcases exec_cases i s with h' | ⟨u, r, hw, he⟩
    · exact .inl h'
    · exact .inr ⟨i, u, r, rfl, hw, he⟩

end Sys2Proof.Machine
end

