-- ==== Sys2Proof/Laws/PerInstr.lean ====
section
/-! SUPPORT. A statement for every operation: its opcode has a format, and the RSVD_MASK of that format (30_encoding.md
R71) finds a reserved bit in its word exactly where the operation is not well formed. -/

namespace Sys2Proof.Laws

/-- The mask of the operation's format tests the operation's reserved fields, and no other bit. -/
def ReservedBits.Statement (i : Instr) : Prop :=
  ∃ f, formatOf (opcodeOf i) = some f ∧ (encode i &&& rsvdMask f = 0 ↔ i.WellFormed = true)

theorem reservedBits_of_command {i : Instr} {c : Command} (hf : formatOf (opcodeOf i) = some .C)
    (hb : operandBits i = commandBits c) (hw : i.WellFormed = c.WellFormed) : ReservedBits.Statement i :=
  ⟨.C, hf, by rw [and_rsvdMask_eq_zero]; simp [field_command_rsvd hb, hw, Command.WellFormed]⟩

theorem ReservedBits.rev (rsvd : BitVec 16) (k : BitVec 4) (n : Byte) :
    ReservedBits.Statement (.rev rsvd k n) :=
  ⟨.R, rfl, by
    rw [and_rsvdMask_eq_zero]
    simp [field_upper_rsvd (i := .rev rsvd k n) rfl, Instr.WellFormed]⟩

theorem ReservedBits.enct (c : Command) : ReservedBits.Statement (.enct c) := reservedBits_of_command rfl rfl rfl

theorem ReservedBits.encf (c : Command) : ReservedBits.Statement (.encf c) := reservedBits_of_command rfl rfl rfl

theorem ReservedBits.encp (c : Command) : ReservedBits.Statement (.encp c) := reservedBits_of_command rfl rfl rfl

theorem ReservedBits.enci (c : Command) : ReservedBits.Statement (.enci c) := reservedBits_of_command rfl rfl rfl

theorem ReservedBits.pclr (rsvd : BitVec 28) : ReservedBits.Statement (.pclr rsvd) :=
  ⟨.N, rfl, by
    rw [and_rsvdMask_eq_zero]
    simp [field_all_operands (i := .pclr rsvd) rfl, operandBits, Instr.WellFormed]⟩

theorem ReservedBits.pxor (rsvd : BitVec 20) (b : Byte) : ReservedBits.Statement (.pxor rsvd b) :=
  ⟨.B, rfl, by
    rw [and_rsvdMask_eq_zero]
    simp [field_above_byte (i := .pxor rsvd b) rfl, Instr.WellFormed]⟩

theorem ReservedBits.pfold (rsvd : BitVec 28) : ReservedBits.Statement (.pfold rsvd) :=
  ⟨.N, rfl, by
    rw [and_rsvdMask_eq_zero]
    simp [field_all_operands (i := .pfold rsvd) rfl, operandBits, Instr.WellFormed]⟩

theorem ReservedBits.build (c : Command) : ReservedBits.Statement (.build c) := reservedBits_of_command rfl rfl rfl

theorem ReservedBits.encode (rsvd : BitVec 28) : ReservedBits.Statement (.encode rsvd) :=
  ⟨.N, rfl, by
    rw [and_rsvdMask_eq_zero]
    simp [field_all_operands (i := .encode rsvd) rfl, operandBits, Instr.WellFormed]⟩

theorem ReservedBits.send (c : Command) : ReservedBits.Statement (.send c) := reservedBits_of_command rfl rfl rfl

theorem ReservedBits.fwr (rsvd : BitVec 16) (idx : BitVec 4) (b : Byte) :
    ReservedBits.Statement (.fwr rsvd idx b) :=
  ⟨.W, rfl, by
    rw [and_rsvdMask_eq_zero]
    simp [field_upper_rsvd (i := .fwr rsvd idx b) rfl, Instr.WellFormed]⟩

theorem ReservedBits.frd (rsvd : BitVec 16) (idx : BitVec 4) (rsvdLow : BitVec 8) :
    ReservedBits.Statement (.frd rsvd idx rsvdLow) :=
  ⟨.I4, rfl, by
    rw [and_rsvdMask_eq_zero]
    simp [field_upper_rsvd (i := .frd rsvd idx rsvdLow) rfl, field_low_byte (i := .frd rsvd idx rsvdLow) rfl,
      Instr.WellFormed]⟩

theorem ReservedBits.prd (rsvd : BitVec 20) (pidx : BitVec 8) : ReservedBits.Statement (.prd rsvd pidx) :=
  ⟨.I8, rfl, by
    rw [and_rsvdMask_eq_zero]
    simp [field_above_byte (i := .prd rsvd pidx) rfl, Instr.WellFormed]⟩

end Sys2Proof.Laws
end

