-- ==== Sys2Proof/Laws/Run.lean ====
section
/-! SUPPORT. Steps at a presented word, and runs of several steps. -/

namespace Sys2Proof.Machine

/-- One step of a run: a machine that steps to `t` goes on from `t`. -/
theorem run_succ_of_step {M : Host.Core} {k : Nat} {s t : M.State} (h : M.step s = .next t) :
    M.run (k + 1) s = M.run k t := by
  rw [Host.Core.run, h]

/-- The same for the block: cite it for a run of `Sys2Proof.core`. -/
theorem run_core_succ {k : Nat} {s t : State} (h : step s = .next t) :
    Host.Core.run Sys2Proof.core (k + 1) s = Host.Core.run Sys2Proof.core k t :=
  run_succ_of_step (M := Sys2Proof.core) h

@[simp] theorem run_core_zero (s : State) : Host.Core.run Sys2Proof.core 0 s = .next s := rfl

/-- A step in an admitted configuration is what the port does. -/
theorem step_of_admitted {s : State} (h : s.cfg.admitted = true) : step s = servePort s := by
  simp [step, serve, h]

/-- A step at a presented word performs it, takes it and gives its response. -/
theorem step_word {s : State} {w : Word} {rest : List HostAction} (hc : s.cfg.admitted = true)
    (hi : s.inbox = .word w :: rest) :
    step s = andThen giveResponse (performWord w (withInbox s rest)) := by
  rw [step_of_admitted hc, servePort, hi]; rfl

/-- What a next state tells of the step that gave it: the configuration is admitted, and the block was idle or served
one action. -/
theorem step_eq_next {s t : State} (h : step s = .next t) :
    s.cfg.admitted = true ∧
      ((s.inbox = [] ∧ t = s) ∨ ∃ a rest, s.inbox = a :: rest ∧ act a (withInbox s rest) = .next t) := by
  unfold step serve at h
  split at h
  · rename_i hc
    refine ⟨hc, ?_⟩
    unfold servePort at h
    split at h
    · rename_i hi
      cases h
      exact .inl ⟨hi, rfl⟩
    · rename_i a rest hi
      exact .inr ⟨a, rest, hi, h⟩
  · cases h

/-- The writes of an operation leave the parameters, the host's side, and SERR alone. -/
theorem writes_keep {i : Instr} {s u : State} (h : Writes i s u) :
    u.cfg = s.cfg ∧ u.inbox = s.inbox ∧ u.responses = s.responses ∧ u.cuts = s.cuts ∧ u.serr = s.serr := by
  cases i <;> simp only [Writes] at h
  case build => obtain ⟨F, -, rfl⟩ := h; exact ⟨rfl, rfl, rfl, rfl, rfl⟩
  case encode => obtain ⟨F, S, -, -, rfl⟩ := h; exact ⟨rfl, rfl, rfl, rfl, rfl⟩
  case send => obtain ⟨F, S, -, -, rfl⟩ := h; exact ⟨rfl, rfl, rfl, rfl, rfl⟩
  case fwr => obtain ⟨-, rfl⟩ := h; exact ⟨rfl, rfl, rfl, rfl, rfl⟩
  all_goals subst h; exact ⟨rfl, rfl, rfl, rfl, rfl⟩

/-- Performing a word always answers a next state, with the parameters and the host's side as they were. -/
theorem performWord_answers (w : Word) (s : State) :
    ∃ t, performWord w s = .next t ∧ t.cfg = s.cfg ∧ t.inbox = s.inbox ∧ t.responses = s.responses ∧
      t.cuts = s.cuts := by
  rcases performWord_cases w s with ⟨c, -, h⟩ | ⟨i, u, r, -, hw, h⟩
  · exact ⟨_, h, rfl, rfl, rfl, rfl⟩
  · obtain ⟨h1, h2, h3, h4, -⟩ := writes_keep hw
    exact ⟨_, h, h1, h2, h3, h4⟩

end Sys2Proof.Machine
end

