-- ==== Sys2Proof/Tests/Slice0.lean ====
section
/-! SUPPORT. Tests of the model against the words and vectors that the spec prints, and for each statement with
hypotheses a concrete input that meets them. Expected values are read from 30_encoding.md and from the tables V1 to V8
of 95_test_vectors.md, never from the model. -/

namespace Sys2Proof.Tests

open Sys2Proof Sys2Proof.Machine

/-! ### WellFormed: an ill-formed term for each check is refused -/

/-- A command whose reserved bits are not 0. -/
def illCommand : Command := { zeroCommand with rsvd := 1 }

theorem test_wellFormed_rev : (Instr.rev 0 4 11).WellFormed = true ∧ (Instr.rev 1 4 11).WellFormed = false := by decide
theorem test_wellFormed_enct :
    (Instr.enct zeroCommand).WellFormed = true ∧ (Instr.enct illCommand).WellFormed = false := by decide
theorem test_wellFormed_encf :
    (Instr.encf zeroCommand).WellFormed = true ∧ (Instr.encf illCommand).WellFormed = false := by decide
theorem test_wellFormed_encp :
    (Instr.encp zeroCommand).WellFormed = true ∧ (Instr.encp illCommand).WellFormed = false := by decide
theorem test_wellFormed_enci :
    (Instr.enci zeroCommand).WellFormed = true ∧ (Instr.enci illCommand).WellFormed = false := by decide
theorem test_wellFormed_pclr : (Instr.pclr 0).WellFormed = true ∧ (Instr.pclr 1).WellFormed = false := by decide
theorem test_wellFormed_pxor : (Instr.pxor 0 9).WellFormed = true ∧ (Instr.pxor 1 9).WellFormed = false := by decide
theorem test_wellFormed_pfold : (Instr.pfold 0).WellFormed = true ∧ (Instr.pfold 1).WellFormed = false := by decide
theorem test_wellFormed_build :
    (Instr.build zeroCommand).WellFormed = true ∧ (Instr.build illCommand).WellFormed = false := by decide
theorem test_wellFormed_encode : (Instr.encode 0).WellFormed = true ∧ (Instr.encode 1).WellFormed = false := by decide
theorem test_wellFormed_send :
    (Instr.send zeroCommand).WellFormed = true ∧ (Instr.send illCommand).WellFormed = false := by decide
theorem test_wellFormed_fwr :
    (Instr.fwr 0 4 0xC0).WellFormed = true ∧ (Instr.fwr 1 4 0xC0).WellFormed = false := by decide
theorem test_wellFormed_frd : (Instr.frd 0 12 0).WellFormed = true ∧ (Instr.frd 1 12 0).WellFormed = false ∧
    (Instr.frd 0 12 1).WellFormed = false := by decide
theorem test_wellFormed_prd : (Instr.prd 0 5).WellFormed = true ∧ (Instr.prd 1 5).WellFormed = false := by decide

/-! ### Decoding: one word for every operation, written out from the formats of 30_encoding.md R61, R62, R63, R70 -/

/-- OP 0001, K 0100, N 00001011. -/
theorem test_decode_rev : decode 0b0001_0000000000000000_0100_00001011 = .ok (.rev 0 4 11) := by rfl
/-- OP 0010, TEMP 00010100. -/
theorem test_decode_enct : decode 0b0010_00_0_000_0_0000000000000_00010100 =
    .ok (.enct { pwr := .neither, ion := false, fan := .notGiven, tempV := false, rsvd := 0, temp := 20 }) := by rfl
/-- OP 0011, FAN_SEL 011 (speed 2). -/
theorem test_decode_encf : decode 0b0011_00_0_011_0_0000000000000_00000000 =
    .ok (.encf { pwr := .neither, ion := false, fan := .speed2, tempV := false, rsvd := 0, temp := 0 }) := by rfl
/-- OP 0100, PWR_SEL 10 (on). -/
theorem test_decode_encp : decode 0b0100_10_0_000_0_0000000000000_00000000 =
    .ok (.encp { pwr := .on, ion := false, fan := .notGiven, tempV := false, rsvd := 0, temp := 0 }) := by rfl
/-- OP 0101, ION 1. -/
theorem test_decode_enci : decode 0b0101_00_1_000_0_0000000000000_00000000 =
    .ok (.enci { pwr := .neither, ion := true, fan := .notGiven, tempV := false, rsvd := 0, temp := 0 }) := by rfl
/-- OP 0110. -/
theorem test_decode_pclr : decode 0b0110_0000000000000000000000000000 = .ok (.pclr 0) := by rfl
/-- OP 0111, B 01010101. -/
theorem test_decode_pxor : decode 0b0111_00000000000000000000_01010101 = .ok (.pxor 0 0x55) := by rfl
/-- OP 1000. -/
theorem test_decode_pfold : decode 0b1000_0000000000000000000000000000 = .ok (.pfold 0) := by rfl
/-- OP 1001, PWR_SEL 10, ION 0, FAN_SEL 011, TEMP_V 1, TEMP 20. -/
theorem test_decode_build : decode 0b1001_10_0_011_1_0000000000000_00010100 =
    .ok (.build { pwr := .on, ion := false, fan := .speed2, tempV := true, rsvd := 0, temp := 20 }) := by rfl
/-- OP 1010, reserved bit 0 set: the operation still decodes, and raises RSVD when performed (R73). -/
theorem test_decode_encode : decode 0b1010_0000000000000000000000000001 = .ok (.encode 1) := by rfl
/-- OP 1011, PWR_SEL 01, ION 1, FAN_SEL 111, TEMP_V 0, reserved bits 1 0000 0000 0001, TEMP 255. -/
theorem test_decode_send : decode 0b1011_01_1_111_0_1000000000001_11111111 =
    .ok (.send { pwr := .off, ion := true, fan := .unrecognized7, tempV := false, rsvd := 0x1001, temp := 255 }) := by
  rfl
/-- OP 1100, IDX 0100, B 11000000. -/
theorem test_decode_fwr : decode 0b1100_0000000000000000_0100_11000000 = .ok (.fwr 0 4 0xC0) := by rfl
/-- OP 1101, IDX 1100 at bits 11:8, and a bit set on each side of it. -/
theorem test_decode_frd : decode 0b1101_1000000000000000_1100_00000001 = .ok (.frd 0x8000 12 1) := by rfl
/-- OP 1110, PIDX 11010011. -/
theorem test_decode_prd : decode 0b1110_00000000000000000000_11010011 = .ok (.prd 0 211) := by rfl
/-- OP 0000 and 1111 spell no operation (R72). -/
theorem test_decode_illegal :
    decode 0x00000000 = .error .illegalOp ∧ decode 0xFFFFFFFF = .error .illegalOp ∧
      decode 0xF0000000 = .error .illegalOp := ⟨rfl, rfl, rfl⟩
/-- PWR_SEL 11 and the remaining fan selections (R62, R63; the words of V3). -/
theorem test_decode_selections :
    (commandOf 0x4C000000).pwr = .both ∧ (commandOf 0x30400000).fan = .auto ∧ (commandOf 0x30800000).fan = .speed1 ∧
      (commandOf 0x31000000).fan = .speed3 ∧ (commandOf 0x31400000).fan = .unrecognized5 ∧
      (commandOf 0x31800000).fan = .unrecognized6 := by decide
/-- The masks of R71 leave exactly the operand bits of R61. -/
theorem test_masks : rsvdMask .C = 0b0000_00_0_000_0_1111111111111_00000000 ∧
    rsvdMask .I4 = 0b0000_1111111111111111_0000_11111111 := by decide

/-! ### Assembling: the lines and words of 95_test_vectors.md -/

theorem test_assemble_send : (assemble (.send .on (some 20) .speed2 false)).map encode = some 0xB8E00014 := by decide
theorem test_assemble_build_off : (assemble (.build .off none .notGiven true)).map encode = some 0x96000000 := by decide
theorem test_assemble_enct : (assemble (.enct (-1))).map encode = some 0x200000FF ∧ assemble (.enct 128) = none := by
  decide
theorem test_assemble_frd : (assemble (.frd 13)).map encode = some 0xD0000D00 ∧ assemble (.frd 16) = none := by decide

/-! ### One step for each operation -/

/-- STAT and RESULT of the response to a word presented to `s` (which has given no response before). -/
def responseOf (s : State) (w : Nat) : Option (Word × Word) :=
  match step (s.withFetchWord 32 w) with
  | .next t => t.responses.getLast?.map fun r => (r.stat, r.result)
  | _ => none

/-- The state after a word presented to `s`, without the responses; `s` itself where the step stops. -/
def after (s : State) (w : Nat) : State :=
  match step (s.withFetchWord 32 w) with
  | .next t => { t with responses := [] }
  | _ => s

/-- Reset, with these 13 bytes in FRAME. -/
def withFrame (F : List Byte) : State := { State.reset with frame := Memory.ofList 0 F }

/-- The FRAME of `BUILD on, 20, 2, noion` (V5). -/
def frame20 : List Byte := [0x55, 0x5A, 0xF3, 0x08, 0xC0, 0x88, 0x8A, 0x18, 0x10, 0x01, 0x00, 0x0F, 0x83]

/-- V1. -/
theorem test_rev : responseOf .reset 0x1000040B = some (0, 0x0D) ∧ responseOf .reset 0x10000306 = some (0, 0x03) ∧
    responseOf .reset 0x100000FF = some (0, 0) := by decide
/-- V1. -/
theorem test_rev_errors : responseOf .reset 0x10000901 = some (0x00080011, 0) ∧
    responseOf .reset 0x10001401 = some (0x00080017, 0) := by decide
/-- V2. -/
theorem test_enct : responseOf .reset 0x2000000A = some (0, 0x0) ∧ responseOf .reset 0x20000012 = some (0, 0x8) ∧
    responseOf .reset 0x20000020 = some (0, 0xF) ∧ responseOf .reset 0x21E00014 = some (0, 0xC) := by decide
/-- V2. -/
theorem test_enct_errors : responseOf .reset 0x20000011 = some (0x00080009, 0) ∧
    responseOf .reset 0x200000FF = some (0x00080009, 0) ∧
    responseOf { State.reset with cfg := { sentinelEn := false } } 0x2000000A = some (0x00080009, 0) := by decide
/-- V3. -/
theorem test_encf : responseOf .reset 0x30400000 = some (0, 0x84) ∧ responseOf .reset 0x31000000 = some (0, 0x8E) := by
  decide
/-- V3. -/
theorem test_encf_errors : responseOf .reset 0x30000000 = some (0x0008000B, 0) ∧
    responseOf .reset 0x31800000 = some (0x0008000D, 0) := by decide
/-- V3. -/
theorem test_encp : responseOf .reset 0x44000000 = some (0, 0x84) ∧ responseOf .reset 0x48000000 = some (0, 0x88) := by
  decide
/-- V3. -/
theorem test_encp_errors : responseOf .reset 0x40000000 = some (0x00080003, 0) ∧
    responseOf .reset 0x4C000000 = some (0x00080005, 0) := by decide
/-- V3. -/
theorem test_enci : responseOf .reset 0x50000000 = some (0, 0x0F) ∧ responseOf .reset 0x52000000 = some (0, 0x2F) ∧
    responseOf .reset 0x52000100 = some (0x00080017, 0) := by decide
/-- V4. -/
theorem test_pclr : (after { State.reset with pacc := 0xAB } 0x60000000).pacc = 0 ∧
    (after { State.reset with pacc := 0xAB } 0x60000001).pacc = 0xAB := by decide
/-- V4. -/
theorem test_pxor : responseOf { State.reset with pacc := 0x12 } 0x70000034 = some (0, 0x26) ∧
    (after { State.reset with pacc := 0x12 } 0x70000034).pacc = 0x26 := by decide
/-- V4. -/
theorem test_pfold : responseOf { State.reset with pacc := 0xAB } 0x80000000 = some (0, 0x1) ∧
    responseOf { State.reset with pacc := 0xF0 } 0x80000000 = some (0, 0xF) ∧
    (after { State.reset with pacc := 0xF0 } 0x80000000).pacc = 0xF0 := by decide
/-- V5. -/
theorem test_build : (after .reset 0x98E00014).frame = Memory.ofList 0 frame20 ∧
    responseOf .reset 0x9B200018 = some (0x0007FFC0, 0x87) ∧
    responseOf { State.reset with cfg := { tpl4 := 0x5A, tpl6 := 0xC3 } } 0x94000000 = some (0x0007FFC0, 0x81) := by
  decide
/-- V5: off with a temperature and a fan that on would refuse; on with two errors, the first in order. -/
theorem test_build_order : responseOf .reset 0x95E00063 = some (0x0007FFC0, 0x89) ∧
    responseOf .reset 0x99E00011 = some (0x00080009, 0) ∧ responseOf .reset 0x98C00000 = some (0x00080007, 0) := by
  decide
/-- V6. -/
theorem test_encode : ((after (withFrame frame20) 0xA0000000).pulse.take 19).map Prod.snd = [3600, 1800, 450, 450, 450,
    1350, 450, 450, 450, 1350, 450, 450, 450, 1350, 450, 450, 450, 1350, 450] := by decide
/-- V6. -/
theorem test_encode_errors : responseOf .reset 0xA0000000 = some (0x00080015, 0) ∧
    responseOf (withFrame (frame20.take 12)) 0xA0000000 = some (0x000BFFD5, 0) := by decide
/-- V6: the sum of PULSE and its last two entries, and program P1, step 1. -/
theorem test_send : responseOf .reset 0xB8E00014 = some (0x0007FFE0, 211) ∧
    ((after .reset 0xB8E00014).pulse.map fun e => e.2.toNat).sum = 129150 ∧
    (after .reset 0xB8E00014).pulse.drop 209 = [(209, 1350), (210, 450)] := by decide +kernel
/-- V6, the packed buffer. -/
theorem test_packed : ((packed (after .reset 0xB8E00014)).map fun p => (p.length, p.take 12)) =
      some (844, [0x10, 0x0E, 0, 0, 0x08, 0x07, 0, 0, 0xC2, 0x01, 0, 0]) ∧
    ((packed (after { State.reset with cfg := { sinkEndian := .big } } 0xB8E00014)).map (List.drop 836)) =
      some [0, 0, 0x05, 0x46, 0, 0, 0x01, 0xC2] := by decide +kernel
/-- V7, and program P3, step 2 (SERR is 0 here). -/
theorem test_fwr : responseOf .reset 0xC0000055 = some (0x00000040, 0) ∧
    (after .reset 0xC00004C0).frame = [(4, 0xC0)] ∧ responseOf .reset 0xC0000D00 = some (0x00080013, 0) := by decide
/-- V7. -/
theorem test_frd : responseOf (withFrame frame20) 0xD0000C00 = some (0x0007FFC0, 0x83) ∧
    responseOf (withFrame frame20) 0xD0000C01 = some (0x000FFFD7, 0) := by decide
/-- V7. -/
theorem test_frd_errors : responseOf .reset 0xD0000000 = some (0x00080015, 0) ∧
    responseOf .reset 0xD0000D00 = some (0x00080013, 0) := by decide
/-- V7. -/
theorem test_prd : responseOf (after .reset 0xB8E00014) 0xE0000005 = some (0x0007FFE0, 1350) ∧
    responseOf (after .reset 0xB8E00014) 0xE00000FF = some (0x000FFFF3, 0) := by decide +kernel
/-- V7. -/
theorem test_prd_errors : responseOf .reset 0xE0000000 = some (0x00080015, 0) ∧
    responseOf .reset 0xE00000D3 = some (0x00080013, 0) := by decide
/-- V8. -/
theorem test_illegal : responseOf .reset 0x00000000 = some (0x00080019, 0) ∧
    responseOf .reset 0xFFFFFFFF = some (0x00080019, 0) := by decide
/-- V8: a reserved bit is reported before the operand errors. -/
theorem test_reserved : responseOf .reset 0x18000901 = some (0x00080017, 0) ∧
    responseOf .reset 0xB8E00114 = some (0x00080017, 0) := by decide

/-! ### Inputs that meet the hypotheses of the statements -/

/-- Reset with the host about to do `l`. -/
def hosted (l : List HostAction) : State := { State.reset with inbox := l }

/-- `on, 20, 2, noion`. -/
def cmdOn : Command := { pwr := .on, ion := false, fan := .speed2, tempV := true, rsvd := 0, temp := 20 }

/-- `off, -, none, ion`. -/
def cmdOff : Command := { pwr := .off, ion := true, fan := .notGiven, tempV := false, rsvd := 0, temp := 0 }

/-- A state that reset does not leave: an error has been raised, PACC and two frame bytes are written. -/
def used : State :=
  { State.reset with err := true, cause := 0x9, serr := true, pacc := 0x30, frame := [(0, 0x55), (12, 0x83)] }

/-- The state after `SEND on, 20, 2, noion`. -/
def sent : State := after .reset 0xB8E00014

theorem witness_EncodeOfDecodeIsTheWord : decode 0xB8E00114 = .ok (.send { cmdOn with rsvd := 1 }) := by rfl

theorem witness_StepRunsTheDecodedOperation :
    (hosted [.word 0x98E00014]).cfg.admitted = true ∧
      (hosted [.word 0x98E00014]).inbox = .word 0x98E00014 :: [] ∧ decode 0x98E00014 = .ok (.build cmdOn) :=
  ⟨rfl, rfl, rfl⟩

theorem witness_IllegalOpWordRaises : State.reset.cfg.admitted = true ∧
    (hosted [.word 0]).inbox = .word 0 :: [] ∧ opField 0 = 0x0 ∧
    (hosted [.word 0xFFFFFFFF]).inbox = .word 0xFFFFFFFF :: [] ∧ opField 0xFFFFFFFF = 0xF := by decide

theorem witness_ReservedBitRaises : State.reset.cfg.admitted = true ∧
    (hosted [.word 0x18000901, .reset]).inbox = .word 0x18000901 :: [.reset] ∧
    formatOf (opField 0x18000901) = some .R ∧ (0x18000901 : Word) &&& rsvdMask .R ≠ 0 ∧
    formatOf (opField 0xD0000C01) = some .I4 ∧ (0xD0000C01 : Word) &&& rsvdMask .I4 ≠ 0 := by decide

/-- The three branches of the procedure: no operation, a reserved bit, an operation. -/
theorem witness_EveryWordIsDecodedByTheProcedure :
    (hosted [.word 0x00000000]).cfg.admitted = true ∧ formatOf (opField 0x00000000) = none ∧
    formatOf (opField 0xA0000001) = some .N ∧ (0xA0000001 : Word) &&& rsvdMask .N ≠ 0 ∧
    formatOf (opField 0xA0000000) = some .N ∧ (0xA0000000 : Word) &&& rsvdMask .N = 0 := by decide

theorem witness_EveryWordGetsOneResponse : (hosted [.word 0xA0000000, .reset]).cfg.admitted = true ∧
    (hosted [.word 0xA0000000, .reset]).inbox = .word 0xA0000000 :: [.reset] := by decide

theorem witness_RunsOfWordsNeverStop : (hosted [.word 0x00000000, .word 0xA0000000, .reset]).cfg.admitted = true ∧
    (hosted [.word 0x00000000, .word 0xA0000000, .reset]).inbox =
      [0x00000000, 0xA0000000].map HostAction.word ++ [.reset] := by decide

theorem witness_IdleBlockHoldsItsState : State.reset.cfg.admitted = true ∧ State.reset.inbox = [] := by decide

/-- Both sides of the equivalence are met, and the off command of the last clause. -/
theorem witness_ConfigurationWithoutBit7IsRefused :
    step { State.reset with cfg := { tpl6 := 0x7F } } = .refused .configNotAdmitted ∧
      ({ tpl6 := 0x80 } : Config).tpl6.getLsbD 7 = true ∧ cmdOff.rsvd = 0 ∧ cmdOff.pwr = .off := ⟨rfl, by decide⟩

theorem witness_EarlyWordIsRefused : (hosted [.earlyWord 0x60000000]).cfg.admitted = true ∧
    (hosted [.earlyWord 0x60000000]).inbox = .earlyWord 0x60000000 :: [] := by decide

theorem witness_ResetGivesTheResetValues : { used with inbox := [.reset] }.cfg.admitted = true ∧
    { used with inbox := [.reset] }.inbox = .reset :: [] := by decide

theorem witness_ResetCutsAnOperationCleanly : { used with inbox := [.resetDuring 0xB8E00014] }.cfg.admitted = true ∧
    { used with inbox := [.resetDuring 0xB8E00014] }.inbox = .resetDuring 0xB8E00014 :: [] := by decide

theorem witness_ParametersNeverChange : step (hosted [.word 0x60000000]) =
    .next { hosted [] with responses := [{ stat := 0, result := 0 }] } := rfl

/-- An invariant state that reset does not leave, with a step from it. -/
theorem witness_EveryStepKeepsTheInvariant : used.Inv ∧ step used = .next used :=
  ⟨{ noErrorNoCause := by decide
     errorHasCause := fun _ => ⟨.indexRange, by decide, rfl⟩
     errorIsSticky := by decide
     errorHasNoResult := by decide
     frameCanonical := by decide
     pulseWhole := .inl rfl }, rfl⟩

theorem witness_StatHoldsItsFields : State.reset.pulse.wf pulseLen = true ∧ pv State.reset = false ∧
    sent.pulse.wf pulseLen = true ∧ pv sent = true := by decide +kernel

/-- A word that completes and a word that raises an error. -/
theorem witness_EveryWordCompletesOrRaisesPrecisely :
    (∃ t, step (hosted [.word 0x70000055]) = .next t ∧ t.err = false) ∧
    (∃ t, step (hosted [.word 0x10000901]) = .next t ∧ t.err = true) := ⟨⟨_, rfl, rfl⟩, ⟨_, rfl, rfl⟩⟩

theorem witness_StickyErrorIsNeverCleared :
    (∃ t, step { used with inbox := [.word 0x70000055] } = .next t ∧ used.serr = true) ∧
    (∃ t, step { used with inbox := [.word 0] } = .next t ∧ t.err = true) := ⟨⟨_, rfl, rfl⟩, ⟨_, rfl, rfl⟩⟩

theorem witness_ValidityBitsAreNeverCleared : (fv sent).getLsbD 12 = true ∧ pv sent = true ∧
    ∃ t, exec (.fwr 0 12 0) sent = .next t := ⟨by decide, by decide +kernel, _, rfl⟩

theorem witness_AccumulatorIsWrittenOnlyByPclrAndPxor : (∃ t, exec (.pfold 0) used = .next t) ∧
    (∀ r, Instr.pfold 0 ≠ .pclr r) ∧ (∀ r b, Instr.pfold 0 ≠ .pxor r b) :=
  ⟨⟨_, rfl⟩, fun _ h => (by cases h), fun _ _ h => (by cases h)⟩

theorem witness_FrameIsWrittenOnlyByItsWriters : (∃ t, exec (.encode 0) sent = .next t) ∧
    (∀ c, Instr.encode 0 ≠ .build c) ∧ (∀ c, Instr.encode 0 ≠ .send c) ∧ (∀ r k b, Instr.encode 0 ≠ .fwr r k b) :=
  ⟨⟨_, rfl⟩, fun _ h => (by cases h), fun _ h => (by cases h), fun _ _ _ h => (by cases h)⟩

theorem witness_PulseIsWrittenOnlyByEncodeAndSend : (∃ t, exec (.build cmdOff) sent = .next t) ∧
    (∀ r, Instr.build cmdOff ≠ .encode r) ∧ (∀ c, Instr.build cmdOff ≠ .send c) :=
  ⟨⟨_, rfl⟩, fun _ h => (by cases h), fun _ h => (by cases h)⟩

/-- Both ends of each range of R100. -/
theorem witness_ReverseReversesTheLowBits : (8 : Nat) ≤ 8 ∧ (7 : Nat) < 8 ∧ (0 : Nat) ≤ 8 ∧ (8 : Nat) ≤ 8 := by decide

theorem witness_ReverseLaws : (1 : Nat) ≤ 1 ∧ (1 : Nat) ≤ 8 ∧ (8 : Nat) ≤ 8 ∧ (0x0E : Byte).toNat < 2 ^ 4 ∧
    (0xFF : Byte).toNat < 2 ^ 8 := by decide

/-- K = 8 completes and K = 9 raises. -/
theorem witness_RevCompletes : (8 : BitVec 4).toNat ≤ 8 ∧ 8 < (9 : BitVec 4).toNat := by decide

/-- 18, 32 and 10 are accepted; 17, 33 and -1 are not, nor is 10 without the sentinel. -/
theorem witness_EnctCompletes : cmdOn.rsvd = 0 ∧ TemperatureAccepted .default (18 : Byte).toInt ∧
    TemperatureAccepted .default (32 : Byte).toInt ∧ TemperatureAccepted .default (10 : Byte).toInt ∧
    ¬ TemperatureAccepted .default (17 : Byte).toInt ∧ ¬ TemperatureAccepted .default (33 : Byte).toInt ∧
    ¬ TemperatureAccepted .default (0xFF : Byte).toInt ∧
    ¬ TemperatureAccepted { sentinelEn := false } (10 : Byte).toInt := by
  unfold TemperatureAccepted; decide

theorem witness_SentinelIsABranchOfItsOwn : ({ cmdOn with temp := 10 } : Command).rsvd = 0 ∧
    ({ cmdOn with temp := 10 } : Command).temp.toInt = 10 ∧ Config.default.sentinelEn = true ∧
    ({ sentinelEn := false } : Config).sentinelEn = false ∧
    ({ cmdOn with temp := 17 } : Command).temp.toInt = 17 := by decide

theorem witness_EncfCompletes : cmdOn.rsvd = 0 ∧ (cmdOn.fan, 0x8A) ∈ fanTable ∧ cmdOff.fan = .notGiven ∧
    ({ cmdOn with fan := .unrecognized5 } : Command).fan = .unrecognized5 := by decide

theorem witness_EncpCompletes : cmdOn.rsvd = 0 ∧ cmdOn.pwr = .on ∧ cmdOff.rsvd = 0 ∧ cmdOff.pwr = .off ∧
    zeroCommand.rsvd = 0 ∧ zeroCommand.pwr = .neither ∧
    ({ cmdOn with pwr := .both } : Command).pwr = .both := by decide

theorem witness_EnciCompletes : cmdOn.rsvd = 0 ∧ cmdOff.rsvd = 0 := by decide

theorem witness_ParityLaws :
    [0x30#8, 0x83].foldr (· ^^^ ·) 0 = [0xB3#8].foldr (· ^^^ ·) 0 ∧ [0x30#8, 0x83].Perm [0x83, 0x30] := by decide

/-- A run in which one of the two PXOR words has a reserved bit set. -/
theorem witness_ParityRunComputesParity :
    (hosted [.word 0x60000000, .word 0x70000055, .word 0x70000155, .word 0x80000000]).cfg.admitted = true ∧
    (hosted [.word 0x60000000, .word 0x70000055, .word 0x70000155, .word 0x80000000]).inbox =
      .word (encode (.pclr 0)) :: ([((0 : BitVec 20), (0x55 : Byte)), (1, 0x55)].map fun p =>
        HostAction.word (encode (.pxor p.1 p.2))) ++ .word (encode (.pfold 0)) :: [] := by decide

/-- An on command, with the frame of V5. -/
theorem witness_CommandHasFrame_on : CommandHasFrame .default cmdOn frame20 :=
  ⟨rfl, 0xC0, 0x8A, _, .inr ⟨rfl, rfl, .inl (by decide), by decide, by decide⟩, rfl, by decide⟩

/-- An on command at each end of the temperatures, and with the sentinel (V5). -/
theorem witness_CommandHasFrame_ends :
    CommandHasFrame .default { pwr := .on, ion := false, fan := .auto, tempV := true, rsvd := 0, temp := 18 }
      [0x55, 0x5A, 0xF3, 0x08, 0x80, 0x88, 0x84, 0x18, 0x10, 0x01, 0x00, 0x0F, 0x89] ∧
    CommandHasFrame .default { pwr := .on, ion := true, fan := .speed1, tempV := true, rsvd := 0, temp := 32 }
      [0x55, 0x5A, 0xF3, 0x08, 0xF0, 0x88, 0x8C, 0x18, 0x10, 0x01, 0x00, 0x2F, 0x84] ∧
    CommandHasFrame .default { pwr := .on, ion := false, fan := .auto, tempV := true, rsvd := 0, temp := 10 }
      [0x55, 0x5A, 0xF3, 0x08, 0x00, 0x88, 0x84, 0x18, 0x10, 0x01, 0x00, 0x0F, 0x81] :=
  ⟨⟨rfl, 0x80, 0x84, _, .inr ⟨rfl, rfl, .inl (by decide), by decide, by decide⟩, rfl, by decide⟩,
    ⟨rfl, 0xF0, 0x8C, _, .inr ⟨rfl, rfl, .inl (by decide), by decide, by decide⟩, rfl, by decide⟩,
    ⟨rfl, 0x00, 0x84, _, .inr ⟨rfl, rfl, .inr (by decide), by decide, by decide⟩, rfl, by decide⟩⟩

/-- An off command, with the frame of V5. -/
theorem witness_CommandHasFrame_off : CommandHasFrame .default cmdOff
    [0x55, 0x5A, 0xF3, 0x08, 0x00, 0x84, 0x80, 0x18, 0x10, 0x01, 0x00, 0x2F, 0x8B] :=
  ⟨rfl, 0x00, 0x80, _, .inl ⟨rfl, rfl, rfl⟩, rfl, by decide⟩

theorem witness_BuildWritesTheFrame : CommandHasFrame used.cfg cmdOn frame20 := witness_CommandHasFrame_on

theorem witness_SendWritesFrameAndPulses : CommandHasFrame used.cfg cmdOn frame20 := witness_CommandHasFrame_on

/-- One command for each clause; the commands differ in the first check they fail. -/
theorem witness_BuildAndSendRaiseTheFirstError :
    illCommand.rsvd ≠ 0 ∧ (zeroCommand.rsvd = 0 ∧ zeroCommand.pwr = .neither) ∧
    ({ cmdOn with pwr := .both } : Command).pwr = .both ∧
    (cmdOn.rsvd = 0 ∧ cmdOn.pwr = .on ∧ ({ cmdOn with tempV := false } : Command).tempV = false) ∧
    (cmdOn.tempV = true ∧ ¬ TemperatureAccepted .default ({ cmdOn with temp := 17 } : Command).temp.toInt ∧
      ¬ TemperatureAccepted .default ({ cmdOn with temp := 33 } : Command).temp.toInt) ∧
    (TemperatureAccepted .default cmdOn.temp.toInt ∧ ({ cmdOn with fan := .notGiven } : Command).fan = .notGiven) ∧
    ({ cmdOn with fan := .unrecognized7 } : Command).fan = .unrecognized7 := by
  unfold TemperatureAccepted; decide

theorem witness_BuiltFramesHaveTheFrameProperties :
    used.cfg.admitted = true ∧ ∃ t, exec (.build cmdOn) used = .next t ∧ t.err = false := ⟨by decide, _, rfl, rfl⟩

theorem witness_ParityByteHasAClosedForm : ∃ t, exec (.build cmdOff) used = .next t ∧ t.err = false := ⟨_, rfl, rfl⟩

theorem witness_BuildAndSendDependOnlyOnWordAndParameters : used.cfg = State.reset.cfg ∧
    (∃ t, exec (.build cmdOn) used = .next t ∧ t.err = false) ∧ (∃ t, exec (.build cmdOn) .reset = .next t) ∧
    (∃ t, exec (.send cmdOn) used = .next t ∧ t.err = false) ∧ (∃ t, exec (.send cmdOn) .reset = .next t) :=
  ⟨rfl, ⟨_, rfl, rfl⟩, ⟨_, rfl⟩, ⟨_, rfl, rfl⟩, ⟨_, rfl⟩⟩

/-- The first and the last bit of the frame, and the ends of the range of even entries. -/
theorem witness_PulsePositions : frame20.length = 13 ∧ (∃ S, encodePulses frame20 = .ok S) ∧
    (frame20[0]? = some 0x55 ∧ 7 ≤ 7) ∧ (frame20[12]? = some 0x83 ∧ 0 ≤ 7) ∧
    (4 ≤ 4 ∧ 4 % 2 = 0 ∧ 210 ≤ 210 ∧ 210 % 2 = 0) := ⟨rfl, ⟨_, rfl⟩, by decide⟩

theorem witness_PulseSequenceLaws : frame20.length = 13 ∧ (∃ S, encodePulses frame20 = .ok S ∧ S[210]? = some 450) ∧
    intervalAt 210 = .mark := ⟨rfl, ⟨_, rfl, by decide⟩, rfl⟩

theorem witness_EncodePulsesChecksTheLength : frame20.length = 13 ∧ (frame20.take 12).length ≠ 13 := by decide

theorem witness_EncodeWritesThePulses :
    frame20.length = 13 ∧ ∀ i, i < 13 → (withFrame frame20).frame.read i = frame20[i]? := by decide

theorem witness_EncodeOfAnUnwrittenFrameRaises : fv (withFrame (frame20.take 12)) ≠ 0x1FFF := by decide

/-- A BUILD that completes and a BUILD that raises an error. -/
theorem witness_SendIsBuildThenEncode :
    (∃ u, exec (.build cmdOn) used = .next u ∧ u.err = false) ∧
    (∃ u, exec (.build zeroCommand) used = .next u ∧ u.err = true) := ⟨⟨_, rfl, rfl⟩, ⟨_, rfl, rfl⟩⟩

theorem witness_PackedFollowsPulse : pv State.reset = false ∧ pv sent = true ∧ sent.cfg.sinkEndian = .little ∧
    pv { sent with cfg := { sinkEndian := .big } } = true := by decide +kernel

theorem witness_PackedBeginsWithTheHeader : (withFrame frame20).cfg.sinkEndian = .little ∧
    (∃ t, exec (.encode 0) (withFrame frame20) = .next t ∧ t.err = false) ∧
    (∃ t, exec (.send cmdOff) (withFrame frame20) = .next t ∧ t.err = false) :=
  ⟨rfl, ⟨_, rfl, rfl⟩, ⟨_, rfl, rfl⟩⟩

/-- Index 12 completes and index 13 raises. -/
theorem witness_FwrWritesOneByte : (12 : BitVec 4).toNat ≤ 12 ∧ 12 < (13 : BitVec 4).toNat := by decide

/-- Index 12 of a written byte, index 1 of an unwritten one, index 13. -/
theorem witness_FrdReadsOneByte : ((12 : BitVec 4).toNat ≤ 12 ∧ used.frame.read (12 : BitVec 4).toNat = some 0x83) ∧
    ((1 : BitVec 4).toNat ≤ 12 ∧ used.frame.read (1 : BitVec 4).toNat = none) ∧ 12 < (13 : BitVec 4).toNat := by decide

/-- Index 210 with and without a sequence, and index 211. -/
theorem witness_PrdReadsOneEntry : ((210 : BitVec 8).toNat ≤ 210 ∧ pv sent = true) ∧ pv used = false ∧
    210 < (211 : BitVec 8).toNat := by decide +kernel

theorem witness_FrdReturnsWhatFwrWrote : (12 : BitVec 4).toNat ≤ 12 := by decide

/-- A state with a sequence that meets the invariant. -/
theorem witness_PrdReadsTheEndsOfEverySequence : sent.Inv ∧ pv sent = true :=
  ⟨{ noErrorNoCause := by decide
     errorHasCause := fun h => absurd h (by decide)
     errorIsSticky := by decide
     errorHasNoResult := by decide
     frameCanonical := by decide
     pulseWhole := .inr ⟨frame20, _, rfl, rfl⟩ }, by decide⟩

end Sys2Proof.Tests
end

section
/-! Which configurations are refused, and the template's share of an off command's frame (00_scope.md R11). -/

namespace Sys2Proof.Machine

/-! ### What a step can refuse -/

/-- The response to a word is a next state, never a stop. -/
theorem respondTo_answers (w : Word) (s : State) : ∃ t, respondTo w s = .next t := by
  obtain ⟨t, ht, -⟩ := performWord_answers w s
  exact ⟨giveResponse t, by simp [respondTo, ht]⟩

/-- A cut operation ends in a next state, whatever the free value of R241 is. -/
theorem cutByReset_answers (w : Word) (s : State) : ∃ t, cutByReset w s = .next t := by
  unfold cutByReset
  split
  · obtain ⟨t, ht⟩ := respondTo_answers w s
    exact ⟨resetBlock (countCut t), by rw [ht, andThen_next]⟩
  · exact ⟨_, rfl⟩

/-- An action of the host is answered by a next state, unless it is a word presented too early. -/
theorem act_cases (a : HostAction) (s : State) :
    (∃ t, act a s = .next t) ∨ (∃ w, a = .earlyWord w ∧ act a s = .refused .wordBeforeResponse) := by
  cases a with
  | word w => exact .inl (respondTo_answers w s)
  | reset => exact .inl ⟨_, rfl⟩
  | resetDuring w => exact .inl (cutByReset_answers w s)
  | earlyWord w => exact .inr ⟨w, rfl, rfl⟩

/-- The port answers a next state, unless the host's next action is a word presented too early. -/
theorem servePort_cases (s : State) :
    (∃ t, servePort s = .next t) ∨
      (∃ w rest, s.inbox = .earlyWord w :: rest ∧ servePort s = .refused .wordBeforeResponse) := by
  cases hi : s.inbox with
  | nil => exact .inl ⟨s, by rw [servePort, hi]⟩
  | cons a rest =>
    have hact : servePort s = act a (withInbox s rest) := by rw [servePort, hi]
    rw [hact]
    rcases act_cases a (withInbox s rest) with hnext | ⟨w, rfl, hearly⟩
    · exact .inl hnext
    · exact .inr ⟨w, rest, rfl, hearly⟩

/-- A configuration that is not admitted is refused before the port is looked at. -/
theorem step_of_not_admitted {s : State} (h : s.cfg.admitted = false) : step s = .refused .configNotAdmitted := by
  simp [step, serve, h]

/-- The configuration's refusal is given to no admitted configuration: the port's only refusal is another one. -/
theorem step_eq_configNotAdmitted_iff (s : State) :
    step s = .refused .configNotAdmitted ↔ s.cfg.admitted = false := by
  refine ⟨fun hstep => ?_, step_of_not_admitted⟩
  by_contra hadm
  rw [step_of_admitted (eq_true_of_ne_false hadm)] at hstep
  rcases servePort_cases s with ⟨t, ht⟩ | ⟨w, rest, -, ht⟩ <;> simp [ht] at hstep

/-! ### The frame of an off command -/

/-- The frame of an off command: the template's bytes 4 and 6, off, and the ion byte (43_frame_assembler.md R142, R143,
R146). -/
def offFrame (cfg : Config) (ion : Bool) : List Byte :=
  let body := frameBody cfg.tpl4 (encPower false) cfg.tpl6 (ionByte ion)
  body ++ [parityByte body]

@[simp] theorem offFrame_getElem?_six (cfg : Config) (ion : Bool) : (offFrame cfg ion)[6]? = some cfg.tpl6 := rfl

/-- An off command gives its frame whatever its temperature and fan fields are (43_frame_assembler.md R146). -/
theorem commandFrame_off {cfg : Config} {c : Command} (hrsvd : c.rsvd = 0) (hoff : c.pwr = .off) :
    commandFrame cfg c = .ok (offFrame cfg c.ion) := by
  have hres : checkReserved c.rsvd = .ok () := by rw [hrsvd]; exact checkReserved_zero 13
  have hpow : powerOperand c.pwr = .ok false := by rw [hoff]; rfl
  rw [commandFrame, hres, hpow]
  rfl

/-- BUILD completes with the frame its command gives. -/
theorem exec_build_of_commandFrame {s : State} {c : Command} {F : List Byte} (h : commandFrame s.cfg c = .ok F) :
    exec (.build c) s = .next (complete (zext (F.getD 12 0)) (storeFrame s F)) := by
  rw [exec, execBuild, h]
  rfl

/-- Settles O11: the refusal is the negation of `Config.admitted`, which is bit 7 of TPL6, and byte 6 is read from the
frame that an off BUILD stores. -/
theorem configurationWithoutBit7IsRefused : Obligations.ConfigurationWithoutBit7IsRefused := by
  refine ⟨rfl, by decide, step_eq_configNotAdmitted_iff, fun s c hrsvd hoff => ?_⟩
  exact ⟨_, exec_build_of_commandFrame (commandFrame_off hrsvd hoff), by simp [storeFrame]⟩

end Sys2Proof.Machine
end

section
/-! What a word, and one operation, can do to STAT and PULSE (10_state.md R23, R24, R32), and the state reset leaves
(R34). -/

namespace Sys2Proof.Machine

/-! ### Words -/

/-- What a step at a presented word can do: the response of one error that is never FRAME_LENGTH, or of the completed
writes of the word's operation. -/
theorem step_word_cases {s t : State} {w : Word} {rest : List HostAction} (hi : s.inbox = .word w :: rest)
    (hstep : step s = .next t) :
    (∃ c, c ≠ .frameLength ∧ t = giveResponse (raise c (withInbox s rest))) ∨
      (∃ i u r, decode w = .ok i ∧ Writes i (withInbox s rest) u ∧ t = giveResponse (complete r u)) := by
  obtain ⟨hadm, -⟩ := step_eq_next hstep
  rw [step_word hadm hi, andThen_eq_next] at hstep
  obtain ⟨v, hv, rfl⟩ := hstep
  rcases performWord_cases w (withInbox s rest) with ⟨c, hc, hraise⟩ | ⟨i, u, r, hdec, hw, hcomplete⟩
  · obtain rfl : v = raise c (withInbox s rest) := by simpa [hv] using hraise
    exact .inl ⟨c, hc, rfl⟩
  · obtain rfl : v = complete r u := by simpa [hv] using hcomplete
    exact .inr ⟨i, u, r, hdec, hw, rfl⟩

/-- The machine's error response is the one written out from 60_exceptions.md R205. -/
theorem raise_eq_errorResponse (c : Cause) (s : State) : raise c s = errorResponse c.code s := rfl

/-- Settles O20: an error is the whole next state, and a completion keeps SERR because no operation's writes
touch it. -/
theorem everyWordCompletesOrRaisesPrecisely : Obligations.EveryWordCompletesOrRaisesPrecisely := by
  intro s t w rest hi hstep
  rcases step_word_cases hi hstep with ⟨c, hc, rfl⟩ | ⟨i, u, r, -, hw, rfl⟩
  · exact .inr ⟨c, hc, by rw [raise_eq_errorResponse]⟩
  · obtain ⟨-, -, -, -, hserr⟩ := writes_keep hw
    exact .inl ⟨rfl, rfl, by simpa using hserr⟩

/-- Settles O21: of the two outcomes of a word, an error sets SERR and a completion keeps it and has ERR = 0. -/
theorem stickyErrorIsNeverCleared : Obligations.StickyErrorIsNeverCleared := by
  intro s t w rest hi hstep
  rcases everyWordCompletesOrRaisesPrecisely s t w rest hi hstep with ⟨herr, -, hserr⟩ | ⟨c, -, rfl⟩
  · exact ⟨by simp [herr], by simp [hserr]⟩
  · exact ⟨fun _ => rfl, fun _ => rfl⟩

/-! ### PULSE -/

/-- The writes of every operation but ENCODE and SEND leave PULSE alone, a stored frame included. -/
theorem writes_keep_pulse {i : Instr} {s u : State} (h : Writes i s u) (hencode : ∀ r, i ≠ .encode r)
    (hsend : ∀ c, i ≠ .send c) : u.pulse = s.pulse := by
  cases i <;> simp only [Writes] at h
  case encode r => exact absurd rfl (hencode r)
  case send c => exact absurd rfl (hsend c)
  case build => obtain ⟨F, -, rfl⟩ := h; rfl
  case fwr => obtain ⟨-, rfl⟩ := h; rfl
  all_goals subst h; rfl

/-- An operation that is neither ENCODE nor SEND leaves PULSE alone, whether it completes or raises an error. -/
theorem exec_keeps_pulse {i : Instr} {s t : State} (h : exec i s = .next t) (hencode : ∀ r, i ≠ .encode r)
    (hsend : ∀ c, i ≠ .send c) : t.pulse = s.pulse := by
  rcases exec_cases i s with ⟨c, -, hraise⟩ | ⟨u, r, hw, hcomplete⟩
  · obtain rfl : t = raise c s := by simpa [h] using hraise
    exact raise_pulse c s
  · obtain rfl : t = complete r u := by simpa [h] using hcomplete
    exact (complete_pulse r u).trans (writes_keep_pulse hw hencode hsend)

/-- PV is a function of PULSE alone. -/
theorem pv_congr {s t : State} (h : t.pulse = s.pulse) : pv t = pv s := by rw [pv, pv, h]

/-- Settles O25: PULSE as a whole is kept, and with it every entry and PV. -/
theorem pulseIsWrittenOnlyByEncodeAndSend : Obligations.PulseIsWrittenOnlyByEncodeAndSend := by
  intro i s t h hencode hsend
  have hpulse := exec_keeps_pulse h hencode hsend
  exact ⟨fun j => by rw [hpulse], pv_congr hpulse⟩

/-! ### Reset -/

/-- FV is 0 where no frame byte holds a value. -/
theorem fv_of_frame_nil {s : State} (h : s.frame = []) : fv s = 0 := by
  apply BitVec.eq_of_getLsbD_eq
  intro i _
  simp [getLsbD_fv, frameValid, h]

/-- PV is 0 where no pulse entry holds a value. -/
theorem pv_of_pulse_nil {s : State} (h : s.pulse = []) : pv s = false := by rw [pv, h]; rfl

/-- While PV is 0 the packed output has no value (10_state.md R31). -/
theorem packed_of_not_pv {s : State} (h : pv s = false) : packed s = none := by simp [packed, h]

/-- Reset leaves the block at its reset values, from every state (70_reset_and_hazards.md R240). -/
theorem blockIsReset_resetBlock (s : State) : BlockIsReset (resetBlock s) := by
  have hfv : fv (resetBlock s) = 0 := fv_of_frame_nil rfl
  have hpv : pv (resetBlock s) = false := pv_of_pulse_nil rfl
  have hstat : stat (resetBlock s) = 0 := by
    rw [stat, hfv, hpv, resetBlock_serr, resetBlock_cause, resetBlock_err]
    decide
  exact ⟨hstat, rfl, rfl, rfl, hfv, hpv, rfl, rfl, read_nil, read_nil⟩

/-- The state after reset is what resetting it again gives. -/
@[simp] theorem resetBlock_reset : resetBlock State.reset = State.reset := rfl

/-- Settles O13: the state after reset is that of a block just reset, and PACKED has no value while PV is 0. -/
theorem resetStateHasTheResetValues : Obligations.ResetStateHasTheResetValues := by
  have hreset := blockIsReset_resetBlock State.reset
  rw [resetBlock_reset] at hreset
  exact ⟨hreset, packed_of_not_pv (pv_of_pulse_nil rfl)⟩

end Sys2Proof.Machine
end

section
/-! PACKED as a function of PULSE (20_memory.md R45): the byte at offset 4j + k lies in entry j, because every entry
before it packs to four bytes. -/

namespace Sys2Proof.Machine

/-! ### Blocks of one length -/

/-- Where every value gives a block of `n`, position `n * j + k` of the blocks in a row is position `k` of block `j`. -/
theorem getElem?_flatMap_of_length_eq {α β : Type} {f : α → List β} {n k : Nat} (hf : ∀ x, (f x).length = n)
    (hk : k < n) (xs : List α) (j : Nat) : (xs.flatMap f)[n * j + k]? = xs[j]?.bind fun x => (f x)[k]? := by
  induction xs generalizing j with
  | nil => simp
  | cons x xs ih =>
    rw [List.flatMap_cons]
    cases j with
    | zero => rw [List.getElem?_append_left (by simpa [hf] using hk)]; simp
    | succ j =>
      have hoffset : n * (j + 1) + k = n + (n * j + k) := by rw [Nat.mul_succ]; omega
      rw [hoffset, List.getElem?_append_right (by simp [hf]), hf, Nat.add_sub_cancel_left, ih,
        List.getElem?_cons_succ]

/-! ### One packed entry -/

@[simp] theorem length_packEntry (e : Endian) (v : Word) : (packEntry e v).length = 4 := by cases e <;> rfl

/-- Little: byte `k` of an entry is bits 8k + 7 to 8k. -/
theorem packEntry_little_getElem? (v : Word) {k : Nat} (hk : k ≤ 3) :
    (packEntry .little v)[k]? = some (v.extractLsb' (8 * k) 8) := by
  interval_cases k <;> rfl

/-- Big: byte `k` of an entry is bits 31 - 8k to 24 - 8k. -/
theorem packEntry_big_getElem? (v : Word) {k : Nat} (hk : k ≤ 3) :
    (packEntry .big v)[k]? = some (v.extractLsb' (24 - 8 * k) 8) := by
  interval_cases k <;> rfl

/-! ### The whole buffer -/

/-- PULSE[0], PULSE[1], … in index order. -/
def pulseValues (s : State) : List Word := s.pulse.map Prod.snd

/-- While PV is 1 there are 211 pulse values. -/
theorem length_pulseValues {s : State} (h : pv s = true) : (pulseValues s).length = 211 := by
  obtain ⟨-, hlength⟩ := full_eq_ofList h
  exact (List.length_map _).trans hlength

/-- While PV is 1 a read of PULSE[j] gives the j-th value. -/
theorem read_pulse_of_pv {s : State} (h : pv s = true) (j : Nat) : s.pulse.read j = (pulseValues s)[j]? := by
  obtain ⟨hvalues, -⟩ := full_eq_ofList h
  rw [hvalues, read_ofList, pulseValues]

/-- While PV is 1 the packed output is every pulse value in turn, packed in the sink's byte order. -/
theorem packed_of_pv {s : State} (h : pv s = true) :
    packed s = some ((pulseValues s).flatMap (packEntry s.cfg.sinkEndian)) := by
  rw [packed, if_pos h, pulseValues, List.flatMap_map]

/-- Settles O52: 211 entries of four bytes make 844, and byte 4j + k is byte k of the entry that a read of PULSE[j]
gives. -/
theorem packedFollowsPulse : Obligations.PackedFollowsPulse := by
  refine fun s => ⟨packed_of_not_pv, fun hpv => ⟨_, packed_of_pv hpv, ?_, fun j k hj hk => ?_⟩⟩
  · simp only [List.length_flatMap, length_packEntry, List.map_const', length_pulseValues hpv,
      List.sum_replicate_nat]
  · obtain ⟨v, hread⟩ := read_isSome_of_full (j := j) hpv (by rw [pulseLen]; omega)
    have hvalue : (pulseValues s)[j]? = some v := by rw [← read_pulse_of_pv hpv, hread]
    have hbyte : ((pulseValues s).flatMap (packEntry s.cfg.sinkEndian))[4 * j + k]? =
        (packEntry s.cfg.sinkEndian v)[k]? := by
      rw [getElem?_flatMap_of_length_eq (length_packEntry _) (by omega), hvalue, Option.bind_some]
    refine ⟨v, hread, fun hlittle => ?_, fun hbig => ?_⟩
    · rw [hbyte, hlittle, packEntry_little_getElem? v hk]
    · rw [hbyte, hbig, packEntry_big_getElem? v hk]

end Sys2Proof.Machine
end

section
/-! The operands of a word are its low 28 bits read as the fields of its format, so a word that decodes is the word of
its operation (30_encoding.md R61, R70). -/

namespace Sys2Proof

/-! ### Adjacent fields -/

/-- Two fields that stand next to each other in a word are one field. -/
theorem field_append_field (w : Word) (lo len len' : Nat) :
    field w (lo + len) len' ++ field w lo len = field w lo (len' + len) :=
  BitVec.extractLsb'_append_extractLsb'_eq_extractLsb' rfl

/-- One bit of a word is a field of length 1. -/
theorem ofBool_getLsbD (w : Word) (lo : Nat) : BitVec.ofBool (w.getLsbD lo) = field w lo 1 := by
  apply BitVec.eq_of_getLsbD_eq
  intro j hj
  obtain rfl : j = 0 := by omega
  rw [getLsbD_field, decide_eq_true hj, Nat.add_zero, Bool.true_and]
  simp

/-- Formats B and I8 split the operands at bit 8. -/
theorem operands_above_byte (w : Word) : field w 8 20 ++ field w 0 8 = field w 0 28 :=
  field_append_field w 0 8 20

/-- Formats R, W and I4 split the operands at bits 12 and 8. -/
theorem operands_three_fields (w : Word) : field w 12 16 ++ field w 8 4 ++ field w 0 8 = field w 0 28 := by
  rw [field_append_field w 8 4 16]
  exact field_append_field w 0 8 20

/-- The command read from a format C word spells the word's operands. -/
theorem commandBits_commandOf (w : Word) : commandBits (commandOf w) = field w 0 28 := by
  simp only [commandBits, commandOf, PwrSel.bits_ofBits, FanSel.bits_ofBits, ofBool_getLsbD]
  rw [field_append_field w 25 1 2, field_append_field w 22 3 3, field_append_field w 21 1 6,
    field_append_field w 8 13 7]
  exact field_append_field w 0 8 20

/-! ### The word of a decoded operation -/

/-- OP and the operands are all of a word. -/
theorem encode_eq_of_fields {i : Instr} {w : Word} (hop : (opField w).toNat = (opcodeOf i).toNat)
    (hoperands : operandBits i = field w 0 28) : encode i = w := by
  refine word_ext ((opField_encode i).trans (BitVec.eq_of_toNat_eq hop.symm)) fun j hj => ?_
  rw [getLsbD_encode_low i hj, hoperands, getLsbD_field, decide_eq_true hj, Bool.true_and, Nat.zero_add]

/-- What decoding a word can answer: ILLEGAL_OP for the two codes of R72, or an operation whose word it is. -/
theorem decode_cases (w : Word) :
    ((opField w = 0x0 ∨ opField w = 0xF) ∧ decode w = .error .illegalOp) ∨
      (∃ i, decode w = .ok i ∧ encode i = w) := by
  cases hdec : decode w with
  | error e =>
    cases e
    unfold decode at hdec
    split at hdec
    case h_15 =>
      refine .inl ⟨?_, rfl⟩
      simp only [imp_false] at *
      bv_omega
    all_goals cases hdec
  | ok i =>
    refine .inr ⟨i, rfl, ?_⟩
    unfold decode at hdec
    split at hdec <;> cases hdec
    -- Format C, then formats R, W and I4, then formats B and I8, then format N.
    case h_2 hop | h_3 hop | h_4 hop | h_5 hop | h_9 hop | h_11 hop =>
      exact encode_eq_of_fields hop (commandBits_commandOf w)
    case h_1 hop | h_12 hop | h_13 hop => exact encode_eq_of_fields hop (operands_three_fields w)
    case h_7 hop | h_14 hop => exact encode_eq_of_fields hop (operands_above_byte w)
    case h_6 hop | h_8 hop | h_10 hop => exact encode_eq_of_fields hop rfl

end Sys2Proof
end

section
/-! The decode procedure of 30_encoding.md R75 at a step: ILLEGAL_OP, RSVD, or the operation of the word. -/

namespace Sys2Proof.Machine

/-! ### Formats and decoding -/

/-- The two codes without a format are the two that spell no operation (30_encoding.md R70, R72). -/
theorem formatOf_eq_none_iff : ∀ op : BitVec 4, formatOf op = none ↔ op = 0x0 ∨ op = 0xF := by decide

/-- The mask of its format finds the reserved bits of every operation. -/
theorem reservedBits (i : Instr) : Laws.ReservedBits.Statement i := by
  cases i with
  | rev rsvd k n => exact Laws.ReservedBits.rev rsvd k n
  | enct c => exact Laws.ReservedBits.enct c
  | encf c => exact Laws.ReservedBits.encf c
  | encp c => exact Laws.ReservedBits.encp c
  | enci c => exact Laws.ReservedBits.enci c
  | pclr rsvd => exact Laws.ReservedBits.pclr rsvd
  | pxor rsvd b => exact Laws.ReservedBits.pxor rsvd b
  | pfold rsvd => exact Laws.ReservedBits.pfold rsvd
  | build c => exact Laws.ReservedBits.build c
  | encode rsvd => exact Laws.ReservedBits.encode rsvd
  | send c => exact Laws.ReservedBits.send c
  | fwr rsvd idx b => exact Laws.ReservedBits.fwr rsvd idx b
  | frd rsvd idx rsvdLow => exact Laws.ReservedBits.frd rsvd idx rsvdLow
  | prd rsvd pidx => exact Laws.ReservedBits.prd rsvd pidx

/-- A word whose OP has a format is the word of an operation, well formed exactly where the format's mask finds 0. -/
theorem exists_decode_of_formatOf_eq_some {w : Word} {f : Format} (hf : formatOf (opField w) = some f) :
    ∃ i, decode w = .ok i ∧ encode i = w ∧ (w &&& rsvdMask f = 0 ↔ i.WellFormed = true) := by
  rcases decode_cases w with ⟨hop, -⟩ | ⟨i, hdec, rfl⟩
  · rw [(formatOf_eq_none_iff _).2 hop] at hf
    cases hf
  · obtain ⟨g, hg, hmask⟩ := reservedBits i
    obtain rfl : g = f := by simpa [hg] using hf
    exact ⟨i, hdec, rfl, hmask⟩

/-- A word whose OP has no format spells no operation. -/
theorem decode_of_formatOf_eq_none {w : Word} (hf : formatOf (opField w) = none) : decode w = .error .illegalOp := by
  rcases decode_cases w with ⟨-, hdec⟩ | ⟨i, -, rfl⟩
  · exact hdec
  · obtain ⟨f, hsome, -⟩ := reservedBits i
    rw [opField_encode, hsome] at hf
    cases hf

/-! ### Reserved bits come first -/

/-- An operation that begins with the reserved-bit check raises RSVD whatever it would do next. -/
theorem answer_checkReserved_of_ne {n : Nat} {r : BitVec n} (h : r ≠ 0) (s : State)
    (body : Unit → Except Cause (State × Word)) :
    answer s (checkReserved r >>= body) = .next (raise .rsvd s) := by
  rw [checkReserved_of_ne h]
  rfl

/-- The frame of a command with a reserved bit set is RSVD, before its power selection is read. -/
theorem commandFrame_of_rsvd_ne {cfg : Config} {c : Command} (h : c.rsvd ≠ 0) :
    commandFrame cfg c = .error .rsvd := by
  rw [commandFrame, checkReserved_of_ne h]
  rfl

/-- Two reserved fields are checked as one, as format I4 does. -/
theorem append_ne_zero {m n : Nat} {a : BitVec m} {b : BitVec n} (h : ¬ (a = 0 ∧ b = 0)) : a ++ b ≠ 0 := by
  intro hzero
  refine h ⟨?_, ?_⟩
  · rw [← BitVec.extractLsb'_append_eq_left (a := a) (b := b), hzero]; simp
  · rw [← BitVec.extractLsb'_append_eq_right (a := a) (b := b), hzero]; simp

/-- An operation with a reserved bit set raises RSVD, whatever its operands (30_encoding.md R73). -/
theorem exec_of_not_wellFormed {i : Instr} (h : i.WellFormed ≠ true) (s : State) :
    exec i s = .next (raise .rsvd s) := by
  cases i <;> simp only [Instr.WellFormed, Command.WellFormed, Bool.and_eq_true, beq_iff_eq, ne_eq] at h
  case build c => rw [exec, execBuild, commandFrame_of_rsvd_ne h]; rfl
  case send c => rw [exec, execSend, commandFrame_of_rsvd_ne h]; rfl
  case frd rsvd idx rsvdLow => exact answer_checkReserved_of_ne (append_ne_zero h) s _
  all_goals exact answer_checkReserved_of_ne h s _

/-! ### Steps -/

/-- A step at a word that spells no operation. -/
theorem step_of_decode_error {s : State} {w : Word} {rest : List HostAction} (hadm : s.cfg.admitted = true)
    (hi : s.inbox = .word w :: rest) (hdec : decode w = .error .illegalOp) :
    step s = .next (giveResponse (errorResponse 0xC (withInbox s rest))) := by
  rw [step_word hadm hi, performWord, hdec]
  rfl

/-- A step at a word that spells an operation is that operation, with its response. -/
theorem step_of_decode_ok {s t : State} {w : Word} {rest : List HostAction} {i : Instr}
    (hadm : s.cfg.admitted = true) (hi : s.inbox = .word w :: rest) (hdec : decode w = .ok i)
    (hexec : exec i (withInbox s rest) = .next t) : step s = .next (giveResponse t) := by
  rw [step_word hadm hi, performWord, hdec]
  exact congrArg (andThen giveResponse) hexec

/-- Performing an operation always answers a next state. -/
theorem exec_answers (i : Instr) (s : State) : ∃ t, exec i s = .next t := by
  rcases exec_cases i s with ⟨c, -, h⟩ | ⟨u, r, -, h⟩
  · exact ⟨_, h⟩
  · exact ⟨_, h⟩

/-- Settles O5: the two codes have no format, and a word without one does not decode. -/
theorem illegalOpWordRaises : Obligations.IllegalOpWordRaises := by
  refine ⟨rfl, fun s w rest hadm hi hop => ?_⟩
  have hf := (formatOf_eq_none_iff (opField w)).2 hop
  exact step_of_decode_error hadm hi (decode_of_formatOf_eq_none hf)

/-- Settles O6: the word is that of an operation that is not well formed, and every operation begins with that check. -/
theorem reservedBitRaises : Obligations.ReservedBitRaises := by
  intro s w rest f hadm hi hf hrsvd
  obtain ⟨i, hdec, -, hmask⟩ := exists_decode_of_formatOf_eq_some hf
  have hexec := exec_of_not_wellFormed (mt hmask.2 hrsvd) (withInbox s rest)
  rw [raise_eq_errorResponse] at hexec
  exact step_of_decode_ok hadm hi hdec hexec

/-- Settles O7: the first two branches are O5 and O6; in the third the word is that of a well-formed operation. -/
theorem everyWordIsDecodedByTheProcedure : Obligations.EveryWordIsDecodedByTheProcedure := by
  intro s w rest hadm hi
  cases hf : formatOf (opField w) with
  | none =>
    have hop := (formatOf_eq_none_iff (opField w)).1 hf
    exact ⟨hop, illegalOpWordRaises.2 s w rest hadm hi hop⟩
  | some f =>
    dsimp only
    split
    next hrsvd => exact reservedBitRaises s w rest f hadm hi hf hrsvd
    next hclear =>
      obtain ⟨i, hdec, henc, hmask⟩ := exists_decode_of_formatOf_eq_some hf
      obtain ⟨t, hexec⟩ := exec_answers i (withInbox s rest)
      have hop : opcodeOf i = opField w := by rw [← henc, opField_encode]
      exact ⟨i, t, hdec, hop, henc, hmask.1 (not_not.1 hclear), hexec, step_of_decode_ok hadm hi hdec hexec⟩

end Sys2Proof.Machine
end

section
/-! The bit reverser, bit by bit (40_bit_reverser.md R100). -/

namespace Sys2Proof.Machine

/-- The first m of the k assignments of R100. -/
def reverseFirst (n : Byte) (k m : Nat) : Byte :=
  (List.range m).foldl (fun r i => setBit r (k - 1 - i) (n.getLsbD i)) 0

theorem reverse_eq_reverseFirst (n : Byte) (k : Nat) : reverse n k = reverseFirst n k k := rfl

@[simp] theorem reverseFirst_zero (n : Byte) (k : Nat) : reverseFirst n k 0 = 0 := rfl

theorem reverseFirst_succ (n : Byte) (k m : Nat) :
    reverseFirst n k (m + 1) = setBit (reverseFirst n k m) (k - 1 - m) (n.getLsbD m) := by
  simp [reverseFirst, List.range_succ]

/-- The first m assignments have written the m highest of the low k bits, each with its mirror image in n; the other
bits are still 0. -/
theorem getLsbD_reverseFirst (n : Byte) {k m : Nat} (hk : k ≤ 8) (hm : m ≤ k) (j : Nat) :
    (reverseFirst n k m).getLsbD j = (decide (k - m ≤ j ∧ j < k) && n.getLsbD (k - 1 - j)) := by
  induction m with
  | zero => simp
  | succ m ih =>
    rw [reverseFirst_succ, getLsbD_setBit _ _ _ _ (by omega), ih (by omega)]
    by_cases hj : j = k - 1 - m
    · have hmirror : k - 1 - j = m := by omega
      have hnew : k - (m + 1) ≤ j ∧ j < k := by omega
      have hold : ¬ (k - m ≤ j ∧ j < k) := by omega
      rw [decide_eq_true hnew, decide_eq_false hold, decide_eq_true hj, hmirror]
      simp
    · have hsame : decide (k - (m + 1) ≤ j ∧ j < k) = decide (k - m ≤ j ∧ j < k) := decide_eq_decide.2 (by omega)
      rw [hsame]
      simp [hj]

/-- Every bit of reverse(n, k): the mirror image among the low k bits, 0 above. -/
theorem getLsbD_reverse (n : Byte) {k : Nat} (hk : k ≤ 8) (j : Nat) :
    (reverse n k).getLsbD j = (decide (j < k) && n.getLsbD (k - 1 - j)) := by
  rw [reverse_eq_reverseFirst, getLsbD_reverseFirst n hk le_rfl]
  simp

/-- Settles O26: bit k-1-i is the mirror image of bit i, since k-1-(k-1-i) = i, and bits at k and above are 0. -/
theorem reverseReversesTheLowBits : Obligations.ReverseReversesTheLowBits := by
  intro n k hk
  refine ⟨fun i hi => ?_, fun j hj => ?_⟩
  · have hlow : k - 1 - i < k := by omega
    have hmirror : k - 1 - (k - 1 - i) = i := by omega
    simp [getLsbD_reverse n hk, hlow, hmirror]
  · simp [getLsbD_reverse n hk, hj]

end Sys2Proof.Machine
end

section
/-! The temperature code of ENCT: the sentinel's branch and the range check (41_field_encoder.md R110 to R112). -/

namespace Sys2Proof.Machine

/-! ### The temperature code -/

/-- The code of 17 - 17 = 0 (41_field_encoder.md R111). -/
theorem tempCode_tempBase : tempCode tempBase = 0 := by decide

/-- The sentinel takes the code of 17 before the range check that would reject 17 (41_field_encoder.md R111). -/
theorem encTemp_sentinel {cfg : Config} (h : cfg.sentinelEn = true) : encTemp cfg 10 = .ok (tempCode tempBase) :=
  if_pos ⟨h, rfl⟩

/-- A temperature that is not accepted is not the enabled sentinel, and fails the range check. -/
theorem encTemp_of_not_accepted {cfg : Config} {t : Int} (h : ¬ TemperatureAccepted cfg t) :
    encTemp cfg t = .error .tempRange := by
  obtain ⟨hrange, hsentinel⟩ := not_or.1 h
  have hout : t < 18 ∨ t > 32 := by omega
  rw [encTemp, if_neg hsentinel, if_pos hout]

/-- Without the sentinel, exactly the temperatures of the range check are accepted (41_field_encoder.md R111). -/
theorem temperatureAccepted_iff_of_disabled {cfg : Config} {t : Int} (h : cfg.sentinelEn = false) :
    TemperatureAccepted cfg t ↔ 18 ≤ t ∧ t ≤ 32 := by
  simp [TemperatureAccepted, h]

/-- 17 is below the range and is not the sentinel. -/
theorem not_temperatureAccepted_tempBase (cfg : Config) : ¬ TemperatureAccepted cfg tempBase := by
  simp [TemperatureAccepted, tempBase]

/-! ### ENCT -/

/-- ENCT without reserved bits ends as encTemp does, and writes nothing of its own (41_field_encoder.md R112). -/
theorem exec_enct_of_rsvd_eq_zero {c : Command} (hrsvd : c.rsvd = 0) (s : State) :
    exec (.enct c) s = answer s ((encTemp s.cfg c.temp.toInt).map fun code => (s, zext code)) := by
  have hres : checkReserved c.rsvd = .ok () := if_pos hrsvd
  rw [exec, execEnct, hres]
  rfl

/-- ENCT completes with encTemp's code. -/
theorem exec_enct_of_encTemp_eq_ok {s : State} {c : Command} {code : BitVec 4} (hrsvd : c.rsvd = 0)
    (h : encTemp s.cfg c.temp.toInt = .ok code) :
    exec (.enct c) s = .next (completionResponse (code.setWidth 32) s) := by
  rw [exec_enct_of_rsvd_eq_zero hrsvd, h]
  rfl

/-- ENCT raises TEMP_RANGE for every temperature that is not accepted. -/
theorem exec_enct_of_not_accepted {s : State} {c : Command} (hrsvd : c.rsvd = 0)
    (h : ¬ TemperatureAccepted s.cfg c.temp.toInt) : exec (.enct c) s = .next (errorResponse 0x4 s) := by
  rw [exec_enct_of_rsvd_eq_zero hrsvd, encTemp_of_not_accepted h]
  rfl

/-- Settles O30: 10 has the branch of its own while SENTINEL_EN = 1; 10 without it, and 17 always, are not accepted. -/
theorem sentinelIsABranchOfItsOwn : Obligations.SentinelIsABranchOfItsOwn := by
  intro s c hrsvd
  refine ⟨fun h10 hen => ?_, fun h10 hdis => ?_, fun h17 => ?_⟩
  · have hcode : encTemp s.cfg c.temp.toInt = .ok 0 := by rw [h10, encTemp_sentinel hen, tempCode_tempBase]
    exact exec_enct_of_encTemp_eq_ok hrsvd hcode
  · refine exec_enct_of_not_accepted hrsvd ?_
    rw [h10, temperatureAccepted_iff_of_disabled hdis]
    decide
  · refine exec_enct_of_not_accepted hrsvd ?_
    rw [h17]
    exact not_temperatureAccepted_tempBase s.cfg

end Sys2Proof.Machine
end

section
/-! An off command takes bytes 4 and 6 from the template, under BUILD and SEND alike (43_frame_assembler.md R146). -/

namespace Sys2Proof.Machine

/-! ### The bytes of an off command's frame -/

/-- Byte 11 under either value of ION (43_frame_assembler.md R144). -/
theorem ionByte_eq (ion : Bool) : ionByte ion = if ion then 0x2F else 0x0F := by cases ion <;> rfl

@[simp] theorem offFrame_getElem?_four (cfg : Config) (ion : Bool) : (offFrame cfg ion)[4]? = some cfg.tpl4 := rfl
@[simp] theorem offFrame_getElem?_five (cfg : Config) (ion : Bool) : (offFrame cfg ion)[5]? = some 0x84 := rfl
@[simp] theorem offFrame_getElem?_eleven (cfg : Config) (ion : Bool) :
    (offFrame cfg ion)[11]? = some (if ion then 0x2F else 0x0F) :=
  congrArg some (ionByte_eq ion)

/-! ### SEND -/

/-- SEND completes with the frame its command gives and the sequence of that frame, which always has the 13 bytes
encodePulses asks for (44_ir_pulse_sequence_generator.md R165). -/
theorem exec_send_of_commandFrame {s : State} {c : Command} {F : List Byte} (h : commandFrame s.cfg c = .ok F) :
    ∃ S, encodePulses F = .ok S ∧ exec (.send c) s = .next (complete 211 (storePulse (storeFrame s F) S)) := by
  have hpulses := encodePulses_of_length (length_commandFrame h)
  refine ⟨_, hpulses, ?_⟩
  rw [exec, execSend, h]
  change answer s (encodePulses F >>= fun S => pure (storePulse (storeFrame s F) S, 211)) = _
  rw [hpulses]
  rfl

/-- Settles O40: the frame of an off command is `offFrame` whatever its temperature and fan fields are, and both
operations store that frame. -/
theorem offCommandIgnoresTemperatureAndFan : Obligations.OffCommandIgnoresTemperatureAndFan := by
  intro s ion tempV fan temp
  have hframe : commandFrame s.cfg { pwr := .off, ion, fan, tempV, rsvd := 0, temp } = .ok (offFrame s.cfg ion) :=
    commandFrame_off rfl rfl
  obtain ⟨S, -, hsend⟩ := exec_send_of_commandFrame hframe
  exact ⟨_, exec_build_of_commandFrame hframe, rfl, by simp, by simp, by simp, by simp, _, hsend, rfl, rfl⟩

end Sys2Proof.Machine
end

section
/-! The idle block: the port with no action of the host waiting (60_exceptions.md R216). -/

namespace Sys2Proof.Machine

/-- With nothing presented, serving the port changes nothing. -/
theorem servePort_of_inbox_nil {s : State} (hi : s.inbox = []) : servePort s = .next s := by
  rw [servePort, hi]

/-- Settles O10: an admitted step is what the port does, and the port of an idle block does nothing. -/
theorem idleBlockHoldsItsState : Obligations.IdleBlockHoldsItsState := by
  intro s hadm hidle
  calc step s = servePort s := step_of_admitted hadm
    _ = .next s := servePort_of_inbox_nil hidle

end Sys2Proof.Machine
end

section
/-! A reset between operations (70_reset_and_hazards.md R240, R242): the block is reset with the host's next action
waiting. -/

namespace Sys2Proof.Machine

/-- At a reset the port takes the action off the inbox and resets the block. -/
theorem servePort_of_inbox_reset {s : State} {rest : List HostAction} (hi : s.inbox = .reset :: rest) :
    servePort s = .next (resetBlock (withInbox s rest)) := by
  rw [servePort, hi]
  rfl

/-- The whole next state of a step at a reset, in an admitted configuration. -/
theorem step_reset {s : State} {rest : List HostAction} (hadm : s.cfg.admitted = true)
    (hi : s.inbox = .reset :: rest) : step s = .next (resetBlock (withInbox s rest)) := by
  rw [step_of_admitted hadm, servePort_of_inbox_reset hi]

/-- Settles O14: the step at a reset is `resetBlock`, which leaves every piece of state at its reset value and keeps
the parameters and the host's inbox. -/
theorem resetGivesTheResetValues : Obligations.ResetGivesTheResetValues := by
  intro s rest hadm hi
  have hcfg : (resetBlock (withInbox s rest)).cfg = s.cfg := by simp
  have hinbox : (resetBlock (withInbox s rest)).inbox = rest := by simp
  exact ⟨_, step_reset hadm hi, blockIsReset_resetBlock _, hcfg, hinbox⟩

end Sys2Proof.Machine
end

section
/-! The fields of an encoded word are the operands it was made of, so decoding inverts encoding (30_encoding.md R61,
R66, R70). -/

namespace Sys2Proof

/-! ### The operands are determined by their bits -/

/-- Two fields put together determine both. -/
theorem append_inj {m n : Nat} {a a' : BitVec m} {b b' : BitVec n} (h : a ++ b = a' ++ b') : a = a' ∧ b = b' := by
  constructor
  · rw [← BitVec.extractLsb'_append_eq_left (a := a) (b := b), h, BitVec.extractLsb'_append_eq_left]
  · rw [← BitVec.extractLsb'_append_eq_right (a := a) (b := b), h, BitVec.extractLsb'_append_eq_right]

theorem PwrSel.bits_injective : Function.Injective PwrSel.bits := Function.LeftInverse.injective PwrSel.ofBits_bits

theorem FanSel.bits_injective : Function.Injective FanSel.bits := Function.LeftInverse.injective FanSel.ofBits_bits

theorem ofBool_injective : Function.Injective BitVec.ofBool := by decide

/-- The 28 operand bits of format C determine the command. -/
theorem commandBits_injective : Function.Injective commandBits := by
  rintro ⟨pwr, ion, fan, tempV, rsvd, temp⟩ ⟨pwr', ion', fan', tempV', rsvd', temp'⟩ h
  obtain ⟨h, rfl⟩ := append_inj h
  obtain ⟨h, rfl⟩ := append_inj h
  obtain ⟨h, htempV⟩ := append_inj h
  obtain ⟨h, hfan⟩ := append_inj h
  obtain ⟨hpwr, hion⟩ := append_inj h
  obtain rfl := ofBool_injective htempV
  obtain rfl := FanSel.bits_injective hfan
  obtain rfl := PwrSel.bits_injective hpwr
  obtain rfl := ofBool_injective hion
  rfl

/-! ### The fields of an encoded word -/

/-- Bits 27:0 of an encoded word are its operands. -/
theorem field_operands_encode (i : Instr) : field (encode i) 0 28 = operandBits i := field_all_operands rfl

/-- The command read from an encoded word of format C. -/
theorem commandOf_encode {i : Instr} {c : Command} (h : operandBits i = commandBits c) : commandOf (encode i) = c := by
  apply commandBits_injective
  rw [commandBits_commandOf, field_operands_encode, h]

/-- The 4-bit field of an encoded word of formats R, W and I4. -/
theorem field_middle {i : Instr} {r : BitVec 16} {k : BitVec 4} {b : Byte} (h : operandBits i = r ++ k ++ b) :
    field (encode i) 8 4 = k := by
  have hfields := (operands_three_fields (encode i)).trans ((field_operands_encode i).trans h)
  exact (append_inj (append_inj hfields).1).2

/-- The byte field of an encoded word of formats B and I8. -/
theorem field_byte {i : Instr} {r : BitVec 20} {b : Byte} (h : operandBits i = r ++ b) : field (encode i) 0 8 = b :=
  (append_inj ((operands_above_byte (encode i)).trans ((field_operands_encode i).trans h))).2

/-! ### The round trips -/

/-- Settles O1: the opcode selects the operation's own arm of the decoder, and the fields read there are its
operands. -/
theorem decodeOfEncodeIsTheOperation : Obligations.DecodeOfEncodeIsTheOperation := by
  intro i
  rw [decode, opField_encode]
  -- Format C, then formats R, W and I4, then formats B and I8, then format N.
  cases i
  case enct | encf | encp | enci | build | send =>
    refine congrArg Except.ok ?_
    congr 1
    exact commandOf_encode rfl
  case rev | fwr | frd =>
    refine congrArg Except.ok ?_
    congr 1
    exacts [field_upper_rsvd rfl, field_middle rfl, field_low_byte rfl]
  case pxor | prd =>
    refine congrArg Except.ok ?_
    congr 1
    exacts [field_above_byte rfl, field_byte rfl]
  case pclr | pfold | encode =>
    refine congrArg Except.ok ?_
    congr 1
    exact field_operands_encode _

/-- Settles O2: of the two things decoding can answer, only the word of an operation is an operation. -/
theorem encodeOfDecodeIsTheWord : Obligations.EncodeOfDecodeIsTheWord := by
  intro w i hdec
  rcases decode_cases w with ⟨-, herror⟩ | ⟨j, hok, hword⟩
  · rw [herror] at hdec
    cases hdec
  · obtain rfl : j = i := by simpa [hok] using hdec
    exact hword

/-- A word is read as the operation that it is the word of. -/
theorem decode_of_encode_eq {i : Instr} {w : Word} (h : encode i = w) : decode w = .ok i :=
  h ▸ decodeOfEncodeIsTheOperation i

/-- Settles O3: each word is the word of its operation, so O1 reads that operation back from it. -/
theorem writtenWordsDecode : Obligations.WrittenWordsDecode :=
  ⟨decode_of_encode_eq rfl, decode_of_encode_eq rfl, decode_of_encode_eq rfl, decode_of_encode_eq rfl,
    decode_of_encode_eq rfl, decode_of_encode_eq rfl, decode_of_encode_eq rfl, decode_of_encode_eq rfl,
    decode_of_encode_eq rfl⟩

end Sys2Proof
end

section
/-! What a step keeps: one response for each word, the parameters, and a clean cut of an operation by reset
(00_scope.md R3, R14; 60_exceptions.md R207; 70_reset_and_hazards.md R241, R242, R253). -/

namespace Sys2Proof.Machine

/-! ### Words -/

/-- STAT after the response is STAT before it: no field of it is the port's. -/
@[simp] theorem stat_giveResponse (s : State) : stat (giveResponse s) = stat s := rfl

/-- A presented word always gets its one response, takes itself off the inbox and keeps the parameters. -/
theorem step_word_responds {s : State} {w : Word} {rest : List HostAction} (hadm : s.cfg.admitted = true)
    (hi : s.inbox = .word w :: rest) :
    ∃ t, step s = .next t ∧ t.inbox = rest ∧ t.cfg = s.cfg ∧
      t.responses = s.responses ++ [{ stat := stat t, result := t.result }] := by
  obtain ⟨u, hu, hcfg, hinbox, hresponses, -⟩ := performWord_answers w (withInbox s rest)
  refine ⟨giveResponse u, ?_, hinbox, hcfg, ?_⟩
  · rw [step_word hadm hi, hu, andThen_next]
  · rw [giveResponse_responses, hresponses, withInbox_responses, stat_giveResponse, giveResponse_result]

/-- Settles O4: of the three answers of exec, only a next state has a response to give. -/
theorem stepRunsTheDecodedOperation : Obligations.StepRunsTheDecodedOperation := by
  intro s w rest i hadm hi hdec
  rw [step_word hadm hi, performWord, hdec]
  dsimp only
  cases exec i (withInbox s rest) <;> rfl

/-- Settles O8: the response a step at a word adds is the only one. -/
theorem everyWordGetsOneResponse : Obligations.EveryWordGetsOneResponse := by
  intro s w rest hadm hi
  obtain ⟨t, hstep, hinbox, -, hresponses⟩ := step_word_responds hadm hi
  exact ⟨t, hstep, hinbox, hresponses⟩

/-- Settles O9, by induction on the words: a word keeps the parameters, so the next one meets an admitted block too. -/
theorem runsOfWordsNeverStop : Obligations.RunsOfWordsNeverStop := by
  intro ws rest
  induction ws with
  | nil => exact fun s _ hi => ⟨s, rfl, hi, rfl, rfl⟩
  | cons w ws ih =>
    intro s hadm hi
    obtain ⟨u, hstep, hinbox, hcfg, hresponses⟩ := step_word_responds hadm hi
    obtain ⟨t, hrun, hrest, hcfg', hlength⟩ := ih u (by rw [hcfg, hadm]) hinbox
    refine ⟨t, ?_, hrest, hcfg'.trans hcfg, ?_⟩
    · rw [List.length_cons, run_core_succ hstep, hrun]
    · rw [hlength, hresponses, List.length_append, List.length_singleton, List.length_cons]
      omega

/-- Settles O12: the port refuses the action itself. -/
theorem earlyWordIsRefused : Obligations.EarlyWordIsRefused := by
  intro s w rest hadm hi
  rw [step_of_admitted hadm, servePort, hi]
  rfl

/-! ### Resets that cut an operation -/

/-- At a cutting reset the port takes the action off the inbox and lets the free value decide. -/
theorem step_resetDuring {s : State} {w : Word} {rest : List HostAction} (hadm : s.cfg.admitted = true)
    (hi : s.inbox = .resetDuring w :: rest) : step s = cutByReset w (withInbox s rest) := by
  rw [step_of_admitted hadm, servePort, hi]
  rfl

/-- What a cut operation can come to: nothing at all, or its whole response before the reset
(70_reset_and_hazards.md R241). -/
theorem cutByReset_cases (w : Word) (s : State) :
    cutByReset w s = .next (resetBlock (countCut s)) ∨
      (∃ u, performWord w s = .next u ∧ cutByReset w s = .next (resetBlock (countCut (giveResponse u)))) := by
  unfold cutByReset
  split
  · obtain ⟨u, hu, -⟩ := performWord_answers w s
    exact .inr ⟨u, hu, by rw [respondTo, hu, andThen_next, andThen_next]⟩
  · exact .inl rfl

/-- Settles O15: either way the block ends as `resetBlock` leaves it, and the response of a completed operation is the
one that the step at its word would have given. -/
theorem resetCutsAnOperationCleanly : Obligations.ResetCutsAnOperationCleanly := by
  intro s w rest hadm hi
  have hstep := step_resetDuring hadm hi
  rcases cutByReset_cases w (withInbox s rest) with hcut | ⟨u, hu, hcut⟩
  · exact ⟨_, hstep.trans hcut, blockIsReset_resetBlock _, rfl, rfl, .inl rfl⟩
  · obtain ⟨v, hv, hcfg, hinbox, -⟩ := performWord_answers w (withInbox s rest)
    obtain rfl : u = v := by simpa [hu] using hv
    have hword : step (withInbox s (.word w :: rest)) = .next (giveResponse u) := by
      rw [step_word (s := withInbox s (.word w :: rest)) hadm rfl]
      exact congrArg (andThen giveResponse) hu
    exact ⟨_, hstep.trans hcut, blockIsReset_resetBlock _, hcfg, hinbox, .inr ⟨_, hword, rfl⟩⟩

/-! ### Any action -/

/-- Performing a word keeps the parameters. -/
theorem performWord_keeps_cfg {w : Word} {s u : State} (h : performWord w s = .next u) : u.cfg = s.cfg := by
  obtain ⟨v, hv, hcfg, -⟩ := performWord_answers w s
  obtain rfl : u = v := by simpa [h] using hv
  exact hcfg

/-- What one action of the host leaves: the response to a performed word, or a block reset from a state with the same
parameters. -/
theorem act_eq_next {a : HostAction} {s t : State} (h : act a s = .next t) :
    (∃ w u, performWord w s = .next u ∧ t = giveResponse u) ∨ (∃ u, u.cfg = s.cfg ∧ t = resetBlock u) := by
  cases a with
  | word w =>
    obtain ⟨u, hu, rfl⟩ := andThen_eq_next.1 h
    exact .inl ⟨w, u, hu, rfl⟩
  | reset => cases h; exact .inr ⟨s, rfl, rfl⟩
  | resetDuring w =>
    replace h : cutByReset w s = .next t := h
    rcases cutByReset_cases w s with hcut | ⟨u, hu, hcut⟩
    · exact .inr ⟨countCut s, rfl, by simpa [h] using hcut⟩
    · exact .inr ⟨countCut (giveResponse u), by simpa using performWord_keeps_cfg hu, by simpa [h] using hcut⟩
  | earlyWord w => cases h

/-- Settles O16: an idle block keeps its whole state, and no action of the host changes a parameter. -/
theorem parametersNeverChange : Obligations.ParametersNeverChange := by
  intro s t h
  rcases step_eq_next h with ⟨-, ⟨-, rfl⟩ | ⟨a, rest, -, hact⟩⟩
  · rfl
  · rcases act_eq_next hact with ⟨w, u, hu, rfl⟩ | ⟨u, hcfg, rfl⟩
    · simpa using performWord_keeps_cfg hu
    · exact hcfg

end Sys2Proof.Machine
end

section
/-! What one operation can write, and the invariant every step keeps (10_state.md R20 to R31). -/

namespace Sys2Proof.Machine

/-! ### One operation -/

/-- What a next state tells of the operation that gave it: an error response, or the completion of the operation's own
writes. -/
theorem exec_eq_next {i : Instr} {s t : State} (h : exec i s = .next t) :
    (∃ c, c ≠ .frameLength ∧ t = raise c s) ∨ (∃ u r, Writes i s u ∧ t = complete r u) := by
  rcases exec_cases i s with ⟨c, hc, hraise⟩ | ⟨u, r, hw, hcomplete⟩
  · exact .inl ⟨c, hc, by simpa [h] using hraise⟩
  · exact .inr ⟨u, r, hw, by simpa [h] using hcomplete⟩

/-- The same for a performed word. -/
theorem performWord_eq_next {w : Word} {s t : State} (h : performWord w s = .next t) :
    (∃ c, c ≠ .frameLength ∧ t = raise c s) ∨ (∃ i u r, Writes i s u ∧ t = complete r u) := by
  rcases performWord_cases w s with ⟨c, hc, hraise⟩ | ⟨i, u, r, -, hw, hcomplete⟩
  · exact .inl ⟨c, hc, by simpa [h] using hraise⟩
  · exact .inr ⟨i, u, r, hw, by simpa [h] using hcomplete⟩

/-- Only PCLR and PXOR write PACC. -/
theorem writes_keep_pacc {i : Instr} {s u : State} (h : Writes i s u) (hpclr : ∀ r, i ≠ .pclr r)
    (hpxor : ∀ r b, i ≠ .pxor r b) : u.pacc = s.pacc := by
  cases i <;> simp only [Writes] at h
  case pclr r => exact absurd rfl (hpclr r)
  case pxor r b => exact absurd rfl (hpxor r b)
  case build => obtain ⟨F, -, rfl⟩ := h; rfl
  case encode => obtain ⟨F, S, -, -, rfl⟩ := h; rfl
  case send => obtain ⟨F, S, -, -, rfl⟩ := h; rfl
  case fwr => obtain ⟨-, rfl⟩ := h; rfl
  all_goals subst h; rfl

/-- Only BUILD, SEND and FWR write FRAME. -/
theorem writes_keep_frame {i : Instr} {s u : State} (h : Writes i s u) (hbuild : ∀ c, i ≠ .build c)
    (hsend : ∀ c, i ≠ .send c) (hfwr : ∀ r k b, i ≠ .fwr r k b) : u.frame = s.frame := by
  cases i <;> simp only [Writes] at h
  case build c => exact absurd rfl (hbuild c)
  case send c => exact absurd rfl (hsend c)
  case fwr r k b => exact absurd rfl (hfwr r k b)
  case encode => obtain ⟨F, S, -, -, rfl⟩ := h; rfl
  all_goals subst h; rfl

/-- FRAME after an operation's writes: as before, a whole frame of 13 bytes, or as before but for one mapped byte. -/
theorem writes_frame_cases {i : Instr} {s u : State} (h : Writes i s u) :
    u.frame = s.frame ∨ (∃ F, F.length = frameLen ∧ u.frame = Memory.ofList 0 F) ∨
      (∃ k b, k < frameLen ∧ u.frame = s.frame.write k b) := by
  cases i
  case build c =>
    obtain ⟨F, hF, rfl⟩ := h
    exact .inr (.inl ⟨F, length_commandFrame hF, rfl⟩)
  case send c =>
    obtain ⟨F, S, hF, -, rfl⟩ := h
    exact .inr (.inl ⟨F, length_commandFrame hF, rfl⟩)
  case fwr r k b =>
    obtain ⟨hk, rfl⟩ := h
    exact .inr (.inr ⟨k.toNat, b, Nat.lt_succ_of_le hk, rfl⟩)
  all_goals exact .inl (writes_keep_frame h (by simp) (by simp) (by simp))

/-- PULSE after an operation's writes: as before, or the whole sequence of a frame. -/
theorem writes_pulse_cases {i : Instr} {s u : State} (h : Writes i s u) :
    u.pulse = s.pulse ∨ ∃ F, PulseEncodes u.pulse F := by
  cases i
  case encode r =>
    obtain ⟨F, S, -, hS, rfl⟩ := h
    exact .inr ⟨F, S, hS, rfl⟩
  case send c =>
    obtain ⟨F, S, -, hS, rfl⟩ := h
    exact .inr ⟨F, S, hS, rfl⟩
  all_goals exact .inl (writes_keep_pulse h (by simp) (by simp))

/-! ### The invariant -/

/-- The invariant is about STAT, RESULT, FRAME and PULSE alone. -/
theorem inv_congr {s t : State} (h : s.Inv) (herr : t.err = s.err) (hcause : t.cause = s.cause)
    (hserr : t.serr = s.serr) (hresult : t.result = s.result) (hframe : t.frame = s.frame)
    (hpulse : t.pulse = s.pulse) : t.Inv := by
  obtain ⟨hnoCause, hhasCause, hsticky, hnoResult, hcanonical, hwhole⟩ := h
  rw [← herr, ← hcause] at hnoCause hhasCause
  rw [← herr, ← hserr] at hsticky
  rw [← herr, ← hresult] at hnoResult
  rw [← hframe] at hcanonical
  rw [← hpulse] at hwhole
  exact ⟨hnoCause, hhasCause, hsticky, hnoResult, hcanonical, hwhole⟩

/-- Giving a response keeps the invariant. -/
theorem inv_giveResponse {s : State} (h : s.Inv) : (giveResponse s).Inv := inv_congr h rfl rfl rfl rfl rfl rfl

/-- Taking an action off the inbox keeps the invariant. -/
theorem inv_withInbox {s : State} (h : s.Inv) (rest : List HostAction) : (withInbox s rest).Inv :=
  inv_congr h rfl rfl rfl rfl rfl rfl

/-- An error response sets the status fields together, and leaves FRAME and PULSE alone. -/
theorem inv_raise {s : State} {c : Cause} (h : s.Inv) (hc : c ≠ .frameLength) : (raise c s).Inv :=
  { noErrorNoCause := by simp
    errorHasCause := fun _ => ⟨c, hc, rfl⟩
    errorIsSticky := fun _ => rfl
    errorHasNoResult := fun _ => rfl
    frameCanonical := h.frameCanonical
    pulseWhole := h.pulseWhole }

/-- A completion has no error to report, so what it needs is the form of FRAME and PULSE. -/
theorem inv_complete {u : State} (r : Word) (hframe : u.frame.wf frameLen = true)
    (hpulse : u.pulse = [] ∨ ∃ F, PulseEncodes u.pulse F) : (complete r u).Inv :=
  { noErrorNoCause := fun _ => rfl
    errorHasCause := by simp
    errorIsSticky := by simp
    errorHasNoResult := by simp
    frameCanonical := hframe
    pulseWhole := hpulse }

/-- The writes of an operation keep the canonical form of FRAME. -/
theorem writes_keep_frame_wf {i : Instr} {s u : State} (h : Writes i s u) (hs : s.frame.wf frameLen = true) :
    u.frame.wf frameLen = true := by
  rcases writes_frame_cases h with hu | ⟨F, hF, hu⟩ | ⟨k, b, hk, hu⟩
  · rw [hu, hs]
  · rw [hu, wf_ofList hF.le]
  · rw [hu, wf_write b hk hs]

/-- Reset leaves nothing for the invariant to rule out. -/
theorem inv_resetBlock (s : State) : (resetBlock s).Inv :=
  { noErrorNoCause := fun _ => rfl
    errorHasCause := by simp
    errorIsSticky := by simp
    errorHasNoResult := by simp
    frameCanonical := rfl
    pulseWhole := .inl rfl }

/-- A performed word keeps the invariant. -/
theorem inv_performWord {w : Word} {s t : State} (h : s.Inv) (hw : performWord w s = .next t) : t.Inv := by
  rcases performWord_eq_next hw with ⟨c, hc, rfl⟩ | ⟨i, u, r, hu, rfl⟩
  · exact inv_raise h hc
  · refine inv_complete r (writes_keep_frame_wf hu h.frameCanonical) ?_
    rcases writes_pulse_cases hu with hpulse | hpulse
    · rw [hpulse]
      exact h.pulseWhole
    · exact .inr hpulse

/-- Settles O17: the state after reset is what resetting it again gives. -/
theorem resetMeetsTheInvariant : Obligations.ResetMeetsTheInvariant := inv_resetBlock State.reset

/-- Settles O18: an action performs a word and gives its response, or resets the block; an idle step does nothing. -/
theorem everyStepKeepsTheInvariant : Obligations.EveryStepKeepsTheInvariant := by
  intro s t hinv hstep
  rcases step_eq_next hstep with ⟨-, ⟨-, rfl⟩ | ⟨a, rest, -, hact⟩⟩
  · exact hinv
  · rcases act_eq_next hact with ⟨w, u, hu, rfl⟩ | ⟨u, -, rfl⟩
    · exact inv_giveResponse (inv_performWord (inv_withInbox hinv rest) hu)
    · exact inv_resetBlock u

/-! ### Who writes PACC and FRAME -/

/-- Settles O23: an error leaves PACC alone, and so do the writes of every other operation. -/
theorem accumulatorIsWrittenOnlyByPclrAndPxor : Obligations.AccumulatorIsWrittenOnlyByPclrAndPxor := by
  intro i s t h hpclr hpxor
  rcases exec_eq_next h with ⟨c, -, rfl⟩ | ⟨u, r, hu, rfl⟩
  · exact raise_pacc c s
  · rw [complete_pacc, writes_keep_pacc hu hpclr hpxor]

/-- Settles O24: FRAME as a whole is kept, by an error and by the writes of every other operation. -/
theorem frameIsWrittenOnlyByItsWriters : Obligations.FrameIsWrittenOnlyByItsWriters := by
  intro i s t h hbuild hsend hfwr a
  rcases exec_eq_next h with ⟨c, -, rfl⟩ | ⟨u, r, hu, rfl⟩
  · rw [raise_frame]
  · rw [complete_frame, writes_keep_frame hu hbuild hsend hfwr]

end Sys2Proof.Machine
end

section
/-! STAT: the places of its fields, and what FV and PV say (10_state.md R22). -/

namespace Sys2Proof.Machine

/-! ### The places of the fields -/

/-- The bits of STAT, field by field. -/
theorem getLsbD_stat (s : State) (j : Nat) :
    (stat s).getLsbD j =
      if j < 1 then (BitVec.ofBool s.err).getLsbD j
      else if j < 5 then s.cause.getLsbD (j - 1)
      else if j < 6 then (BitVec.ofBool (pv s)).getLsbD (j - 5)
      else if j < 19 then (fv s).getLsbD (j - 6)
      else if j < 20 then (BitVec.ofBool s.serr).getLsbD (j - 19)
      else false := by
  have e : (stat s).getLsbD j = BitVec.getLsbD (w := 12 + 1 + 13 + 1 + 4 + 1) (0#12 ++ BitVec.ofBool s.serr ++ fv s ++
      BitVec.ofBool (pv s) ++ s.cause ++ BitVec.ofBool s.err) j := rfl
  rw [e]
  simp only [BitVec.getLsbD_append, BitVec.getLsbD_zero]
  have h1 : j - 1 < 4 ↔ j < 5 := by omega
  have h2 : j - 5 < 1 ↔ j < 6 := by omega
  have h3 : j - 6 < 13 ↔ j < 19 := by omega
  have h4 : j - 19 < 1 ↔ j < 20 := by omega
  have h5 : j - 1 - 4 = j - 5 := by omega
  have h6 : j - 5 - 1 = j - 6 := by omega
  have h7 : j - 6 - 13 = j - 19 := by omega
  simp only [h1, h2, h3, h4, h5, h6, h7]

/-- A field of STAT is the value whose bits stand there. -/
theorem field_stat_eq {s : State} {lo len : Nat} {v : BitVec len}
    (h : ∀ i, i < len → (stat s).getLsbD (lo + i) = v.getLsbD i) : field (stat s) lo len = v :=
  field_eq_iff.2 h

/-! ### What the validity bits say -/

/-- A space in canonical form whose locations from `a` on all hold a value lists exactly those locations. -/
theorem fullFrom_of_reads {α : Type} {a size : Nat} {m : Memory α} (ha : a ≤ size)
    (hwf : Memory.wfFrom a size m = true) (hread : ∀ j, a ≤ j → j < size → (m.read j).isSome = true) :
    Memory.fullFrom size a m = true := by
  induction m generalizing a with
  | nil =>
    have hend : ¬ a < size := fun h => by simpa using hread a le_rfl h
    simp only [Memory.fullFrom, beq_iff_eq]
    omega
  | cons cell rest ih =>
    obtain ⟨b, v⟩ := cell
    simp only [Memory.wfFrom, Bool.and_eq_true, decide_eq_true_eq] at hwf
    obtain ⟨⟨hab, hb⟩, hrest⟩ := hwf
    have hfirst : b = a := by
      by_contra hne
      have hnone := read_eq_none_of_wfFrom hrest (a := a) (by omega)
      simpa [Memory.read, hne, hnone] using hread a le_rfl (by omega)
    subst hfirst
    simp only [Memory.fullFrom, beq_self_eq_true, Bool.true_and]
    refine ih hb hrest fun j hj hsize => ?_
    have hne : b ≠ j := by omega
    simpa [Memory.read, hne] using hread j (by omega) hsize

/-- PV is 1 exactly where every entry of a PULSE in canonical form holds a value. -/
theorem pv_iff_of_wf {s : State} (hwf : s.pulse.wf pulseLen = true) :
    pv s = true ↔ ∀ j, j < 211 → (s.pulse.read j).isSome = true := by
  constructor
  · intro h j hj
    obtain ⟨v, hv⟩ := read_isSome_of_full h (j := j) hj
    rw [hv, Option.isSome_some]
  · intro h
    exact fullFrom_of_reads (Nat.zero_le _) hwf fun j _ hj => h j hj

/-- Settles O19: each place holds the bits of its own field, and the reserved field is 0. -/
theorem statHoldsItsFields : Obligations.StatHoldsItsFields := by
  intro s
  refine ⟨?_, field_stat_eq fun i hi => ?_, ?_, fun i hi => ?_, ?_, field_stat_eq fun i hi => ?_, pv_iff_of_wf⟩
  · rw [getLsbD_stat]
    simp
  · have hplace : ¬ 1 + i < 1 ∧ 1 + i < 5 := by omega
    simp [getLsbD_stat, hplace]
  · rw [getLsbD_stat]
    simp
  · have hplace : ¬ 6 + i < 1 ∧ ¬ 6 + i < 5 ∧ ¬ 6 + i < 6 ∧ 6 + i < 19 := by omega
    rw [getLsbD_stat]
    simp only [hplace, if_false, if_true, Nat.add_sub_cancel_left, getLsbD_fv, hi, decide_true, Bool.true_and]
    rfl
  · rw [getLsbD_stat]
    simp
  · have hplace : ¬ 20 + i < 1 ∧ ¬ 20 + i < 5 ∧ ¬ 20 + i < 6 ∧ ¬ 20 + i < 19 ∧ ¬ 20 + i < 20 := by omega
    simp [getLsbD_stat, hplace]

/-! ### The validity bits are never cleared -/

/-- Entries written as encodePulses gives them fill the whole buffer. -/
theorem full_of_pulseEncodes {p : Memory Word} {F : List Byte} (h : PulseEncodes p F) : p.full pulseLen = true := by
  obtain ⟨S, hS, rfl⟩ := h
  obtain ⟨-, hlength⟩ := length_encodePulses hS
  rw [full_ofList, List.length_map, hlength, beq_self_eq_true]

/-- The writes of an operation leave no frame byte without a value that had one. -/
theorem writes_keep_frameValid {i : Instr} {s u : State} (h : Writes i s u) {j : Nat} (hj : j < 13)
    (hs : frameValid s j = true) : frameValid u j = true := by
  unfold frameValid at *
  rcases writes_frame_cases h with hu | ⟨F, hF, hu⟩ | ⟨k, b, -, hu⟩
  · rw [hu, hs]
  · rw [hu, read_ofList, List.getElem?_eq_getElem (by rw [hF]; exact hj), Option.isSome_some]
  · rw [hu, read_write]
    split
    · rfl
    · exact hs

/-- FV of two states, one of which has a value wherever the other has. -/
theorem getLsbD_fv_mono {s t : State} (h : ∀ j, j < 13 → frameValid s j = true → frameValid t j = true) (j : Nat)
    (hs : (fv s).getLsbD j = true) : (fv t).getLsbD j = true := by
  rw [getLsbD_fv, Bool.and_eq_true, decide_eq_true_eq] at *
  exact ⟨hs.1, h j hs.1 hs.2⟩

/-- Settles O22: an error leaves FRAME and PULSE alone, and a completed operation writes values and takes none away. -/
theorem validityBitsAreNeverCleared : Obligations.ValidityBitsAreNeverCleared := by
  intro i s t h
  rcases exec_eq_next h with ⟨c, -, rfl⟩ | ⟨u, r, hu, rfl⟩
  · exact ⟨fun _ h => h, fun h => h⟩
  · refine ⟨getLsbD_fv_mono fun j hj => writes_keep_frameValid hu hj, fun hpv => ?_⟩
    rcases writes_pulse_cases hu with hpulse | ⟨F, hF⟩
    · rw [pv_congr ((complete_pulse r u).trans hpulse), hpv]
    · exact full_of_pulseEncodes hF

end Sys2Proof.Machine
end

section
/-! The bit reverser's laws and REV (40_bit_reverser.md R101, R102). -/

namespace Sys2Proof.Machine

/-! ### An operation without reserved bits -/

/-- An operation whose reserved bits are 0 goes on with its own work. -/
theorem answer_checkReserved_of_eq_zero {n : Nat} {r : BitVec n} (h : r = 0) (s : State)
    (body : Unit → Except Cause (State × Word)) :
    answer s (checkReserved r >>= body) = answer s (body ()) := by
  have hres : checkReserved r = .ok () := if_pos h
  rw [hres]
  rfl

/-! ### reverse -/

/-- A byte is reverse(n, k) where its bits are. -/
theorem reverse_eq_of_bits {n b : Byte} {k : Nat} (hk : k ≤ 8)
    (h : ∀ j, j < 8 → (decide (j < k) && n.getLsbD (k - 1 - j)) = b.getLsbD j) : reverse n k = b := by
  apply BitVec.eq_of_getLsbD_eq
  intro j hj
  rw [getLsbD_reverse n hk, h j hj]

/-- The bits of the mask of the low k bits. -/
theorem getLsbD_lowMask (k j : Nat) :
    (BitVec.ofNat 8 (2 ^ k - 1)).getLsbD j = (decide (j < 8) && decide (j < k)) := by
  rw [BitVec.getLsbD_ofNat, Nat.testBit_two_pow_sub_one]

/-- Reversing twice keeps a value that the low k bits hold. -/
theorem reverse_reverse {n : Byte} {k : Nat} (hk : k ≤ 8) (hn : n.toNat < 2 ^ k) : reverse (reverse n k) k = n := by
  refine reverse_eq_of_bits hk fun j _ => ?_
  rw [getLsbD_reverse n hk]
  by_cases hj : j < k
  · have hmirror : k - 1 - j < k := by omega
    have hback : k - 1 - (k - 1 - j) = j := by omega
    simp [hj, hmirror, hback]
  · have hpow : n.toNat < 2 ^ j := hn.trans_le (Nat.pow_le_pow_right (by decide) (by omega))
    rw [decide_eq_false hj, Bool.false_and]
    exact (Nat.testBit_eq_false_of_lt hpow).symm

/-- All ones among the low k bits are their own mirror image. -/
theorem reverse_lowMask {k : Nat} (hk : k ≤ 8) :
    reverse (BitVec.ofNat 8 (2 ^ k - 1)) k = BitVec.ofNat 8 (2 ^ k - 1) := by
  refine reverse_eq_of_bits hk fun j hj => ?_
  rw [getLsbD_lowMask, getLsbD_lowMask]
  by_cases hlow : j < k
  · have hmirror : k - 1 - j < 8 ∧ k - 1 - j < k := by omega
    simp [hlow, hj, hmirror]
  · simp [hlow]

/-- Bit 0 goes to bit k - 1. -/
theorem reverse_one {k : Nat} (h1 : 1 ≤ k) (hk : k ≤ 8) : reverse 1 k = BitVec.ofNat 8 (2 ^ (k - 1)) := by
  refine reverse_eq_of_bits hk fun j hj => ?_
  rw [BitVec.ofNat_eq_ofNat, BitVec.getLsbD_one, BitVec.getLsbD_ofNat, Nat.testBit_two_pow]
  by_cases hlow : j = k - 1
  · have hin : j < k ∧ k - 1 - j = 0 := by omega
    simp [hin, hj, hlow.symm]
  · have hout : ¬ (j < k ∧ k - 1 - j = 0) := by omega
    have hne : k - 1 ≠ j := Ne.symm hlow
    rw [decide_eq_false hne, Bool.and_false, ← Bool.not_eq_true]
    simpa using hout

/-- Bits at k and above are ignored. -/
theorem reverse_and_lowMask (n : Byte) {k : Nat} (hk : k ≤ 8) :
    reverse n k = reverse (n &&& BitVec.ofNat 8 (2 ^ k - 1)) k := by
  refine reverse_eq_of_bits hk fun j _ => ?_
  rw [getLsbD_reverse _ hk, BitVec.getLsbD_and, getLsbD_lowMask]
  by_cases hj : j < k
  · have hmirror : k - 1 - j < 8 ∧ k - 1 - j < k := by omega
    simp [hmirror]
  · simp [hj]

/-- Settles O27: each law holds bit by bit. -/
theorem reverseLaws : Obligations.ReverseLaws := by
  refine ⟨fun n k _ hk => reverse_reverse hk, fun k hk => ⟨?_, reverse_lowMask hk⟩, fun k => reverse_one,
    fun n => ⟨?_, rfl⟩, fun n k => reverse_and_lowMask n⟩
  · exact reverse_eq_of_bits hk (by simp)
  · refine reverse_eq_of_bits (by decide) fun j hj => ?_
    by_cases h0 : j = 0
    · subst h0
      simp
    · simp [h0]

/-! ### REV -/

/-- REV without reserved bits ends as its count check does. -/
theorem exec_rev_zero (k : BitVec 4) (n : Byte) (s : State) :
    exec (.rev 0 k n) s = answer s ((countOperand k).map fun count => (s, zext (reverse n count))) :=
  answer_checkReserved_of_eq_zero rfl s _

/-- Settles O28: the count check passes up to 8, and the value is reverse(N, K). -/
theorem revCompletes : Obligations.RevCompletes := by
  intro s k n
  rw [exec_rev_zero]
  rcases countOperand_cases k with ⟨hk, hcount⟩ | ⟨hk, hcount⟩
  · have hexec : answer s ((countOperand k).map fun count => (s, zext (reverse n count))) =
        .next (completionResponse ((reverse n k.toNat).setWidth 32) s) := by rw [hcount]; rfl
    exact ⟨fun _ => ⟨reverse n k.toNat, fun j _ => getLsbD_reverse n hk j, hexec⟩, fun h => by omega⟩
  · exact ⟨fun h => by omega, fun _ => by rw [hcount]; rfl⟩

end Sys2Proof.Machine
end

section
/-! The field encoder's operations against the tables of 41_field_encoder.md R113, R114, R117 and R120. -/

namespace Sys2Proof.Machine

/-! ### ENCT -/

/-- The code of an accepted temperature: 10 takes the code of 17 (41_field_encoder.md R110, R111). -/
def acceptedCode (t : Int) : BitVec 4 := if t = 10 then tempCode tempBase else tempCode t

/-- An accepted temperature passes the sentinel's branch or the range check. -/
theorem encTemp_of_accepted {cfg : Config} {t : Int} (h : TemperatureAccepted cfg t) :
    encTemp cfg t = .ok (acceptedCode t) := by
  rcases h with hrange | ⟨hen, rfl⟩
  · have hne : t ≠ 10 := by omega
    have hin : ¬ (t < 18 ∨ t > 32) := by omega
    rw [encTemp, if_neg (fun h => hne h.2), if_neg hin, acceptedCode, if_neg hne]
  · rw [encTemp_sentinel hen]
    rfl

/-- The table lists the code of every accepted temperature. -/
theorem mem_temperatureTable {cfg : Config} {t : Int} (h : TemperatureAccepted cfg t) :
    (t, acceptedCode t) ∈ temperatureTable := by
  rcases h with ⟨hlo, hhi⟩ | ⟨-, rfl⟩
  · interval_cases t <;> decide
  · decide

/-- Settles O29: the two clauses are the two sides of the acceptance check. -/
theorem enctCompletes : Obligations.EnctCompletes := by
  intro s c hrsvd
  refine ⟨fun h => ⟨acceptedCode c.temp.toInt, mem_temperatureTable h, ?_⟩, exec_enct_of_not_accepted hrsvd⟩
  exact exec_enct_of_encTemp_eq_ok hrsvd (encTemp_of_accepted h)

/-! ### ENCF -/

/-- The table gives the fan selections that have a byte. -/
theorem encFan_of_mem_fanTable : ∀ row ∈ fanTable, encFan row.1 = .ok row.2 := by
  simp only [fanTable, List.forall_mem_cons, List.not_mem_nil, false_imp_iff, implies_true, and_true]
  exact ⟨rfl, rfl, rfl, rfl⟩

/-- An unrecognized selection has no byte. -/
theorem encFan_of_unrecognized {sel : FanSel}
    (h : sel = .unrecognized5 ∨ sel = .unrecognized6 ∨ sel = .unrecognized7) :
    encFan sel = .error .fanUnrecognized := by
  rcases h with rfl | rfl | rfl <;> rfl

/-- ENCF without reserved bits ends as encFan does. -/
theorem exec_encf_of_rsvd_eq_zero {c : Command} (hrsvd : c.rsvd = 0) (s : State) :
    exec (.encf c) s = answer s ((encFan c.fan).map fun byte => (s, zext byte)) :=
  answer_checkReserved_of_eq_zero hrsvd s _

/-- Settles O31: a selection is in the table, missing, or unrecognized. -/
theorem encfCompletes : Obligations.EncfCompletes := by
  intro s c hrsvd
  rw [exec_encf_of_rsvd_eq_zero hrsvd]
  refine ⟨fun b hb => ?_, fun h => ?_, fun h => ?_⟩
  · rw [encFan_of_mem_fanTable (c.fan, b) hb]
    rfl
  · rw [h]
    rfl
  · rw [encFan_of_unrecognized h]
    rfl

/-! ### ENCP and ENCI -/

/-- ENCP without reserved bits ends as the power selection does. -/
theorem exec_encp_of_rsvd_eq_zero {c : Command} (hrsvd : c.rsvd = 0) (s : State) :
    exec (.encp c) s = answer s ((powerOperand c.pwr).map fun power => (s, zext (encPower power))) :=
  answer_checkReserved_of_eq_zero hrsvd s _

/-- Settles O32: one clause for each power selection. -/
theorem encpCompletes : Obligations.EncpCompletes := by
  intro s c hrsvd
  rw [exec_encp_of_rsvd_eq_zero hrsvd]
  refine ⟨fun h => ?_, fun h => ?_, fun h => ?_, fun h => ?_⟩ <;> rw [h] <;> rfl

/-- Settles O33: ENCI has no check but that of its reserved bits. -/
theorem enciCompletes : Obligations.EnciCompletes := by
  intro s c hrsvd
  have hexec : exec (.enci c) s = .next (complete (zext (encIon c.ion)) s) := answer_checkReserved_of_eq_zero hrsvd s _
  rw [hexec]
  cases c.ion <;> rfl

end Sys2Proof.Machine
end

section
/-! Parity: the laws of the fold, and a run of PCLR, PXOR and PFOLD (42_parity_nibble_folder.md R130 to R135). -/

namespace Sys2Proof.Machine

/-! ### The nibble fold -/

/-- Bit j of the fold is the XOR of bit j and bit j + 4. -/
theorem getLsbD_nibbleFold (acc : Byte) {j : Nat} (hj : j < 4) :
    (nibbleFold acc).getLsbD j = (acc.getLsbD j ^^ acc.getLsbD (j + 4)) := by
  have hmask : (0x0F#8).getLsbD j = true := by interval_cases j <;> rfl
  have hj8 : j < 8 := by omega
  simp only [nibbleFold, BitVec.getLsbD_setWidth, hj, BitVec.getLsbD_xor, BitVec.getLsbD_and, hmask,
    BitVec.getLsbD_ushiftRight, Nat.add_comm 4 j, decide_true, Bool.true_and, Bool.and_true]

/-- The fold is the high nibble XOR the low one. -/
theorem nibbleFold_eq_xor (acc : Byte) : nibbleFold acc = acc.extractLsb' 4 4 ^^^ acc.extractLsb' 0 4 := by
  apply BitVec.eq_of_getLsbD_eq
  intro j hj
  simp only [getLsbD_nibbleFold acc hj, BitVec.getLsbD_xor, BitVec.getLsbD_extractLsb', hj, decide_true, Bool.true_and,
    Nat.zero_add, Nat.add_comm 4 j, Bool.xor_comm]

/-- The fold of an XOR is the XOR of the folds. -/
theorem nibbleFold_xor (a b : Byte) : nibbleFold (a ^^^ b) = nibbleFold a ^^^ nibbleFold b := by
  apply BitVec.eq_of_getLsbD_eq
  intro j hj
  simp only [getLsbD_nibbleFold _ hj, BitVec.getLsbD_xor, Bool.xor_assoc, Bool.xor_left_comm]

/-- A nibble folds to itself. -/
theorem nibbleFold_setWidth : ∀ p : BitVec 4, nibbleFold (p.setWidth 8) = p := by decide

/-- With bit 7 set, a nibble folds to itself with bit 3 inverted (90_conflicts.md C5). -/
theorem nibbleFold_bit7_or_setWidth : ∀ p : BitVec 4, nibbleFold (0x80#8 ||| p.setWidth 8) = 0x8 ^^^ p := by decide

/-! ### Parity of a byte sequence -/

/-- The XOR of a sequence, folded from either end. -/
theorem xorBytes_eq_foldr (B : List Byte) : xorBytes B = B.foldr (· ^^^ ·) 0 := by
  induction B with
  | nil => rfl
  | cons b B ih => rw [xorBytes_cons, ih, List.foldr_cons]

/-- The order of the bytes does not matter. -/
theorem xorBytes_perm {B C : List Byte} (h : B.Perm C) : xorBytes B = xorBytes C := by
  induction h with
  | nil => rfl
  | cons b _ ih => rw [xorBytes_cons, xorBytes_cons, ih]
  | swap a b B => simp only [xorBytes_cons]; ac_rfl
  | trans _ _ ih ih' => exact ih.trans ih'

/-- One more byte folds its own nibbles in. -/
theorem parity_concat (B : List Byte) (b : Byte) : parity (B ++ [b]) = parity B ^^^ nibbleFold b := by
  simp [parity, nibbleFold_xor]

/-- Settles O34: the parity is the fold of the bytes' XOR, and the closing byte folds in its own low nibble, with bit 3
inverted where its bit 7 is set. -/
theorem parityLaws : Obligations.ParityLaws := by
  refine ⟨rfl, fun B C h => ?_, fun B C h => ?_, fun B => ?_, fun B => ?_, fun B => ?_⟩
  · rw [parity, parity, xorBytes_eq_foldr, xorBytes_eq_foldr, h]
  · rw [parity, parity, xorBytes_perm h]
  · rw [parity, xorBytes_eq_foldr, nibbleFold_eq_xor]
  · rw [parity_concat, nibbleFold_setWidth, BitVec.xor_self]
    rfl
  · rw [parity_concat, nibbleFold_bit7_or_setWidth, BitVec.xor_comm, BitVec.xor_assoc, BitVec.xor_self,
      BitVec.xor_zero]

/-! ### PCLR, PXOR, PFOLD -/

/-- Settles O35: PCLR without reserved bits has no check to fail. -/
theorem pclrCompletes : Obligations.PclrCompletes := by
  intro s
  rw [exec, execPclr, answer_checkReserved_of_eq_zero rfl]
  rfl

/-- Settles O36: PXOR without reserved bits has no check to fail. -/
theorem pxorCompletes : Obligations.PxorCompletes := by
  intro s b
  rw [exec, execPxor, answer_checkReserved_of_eq_zero rfl]
  rfl

/-- PFOLD without reserved bits completes with the fold of PACC. -/
theorem exec_pfold_zero (s : State) : exec (.pfold 0) s = .next (complete (zext (nibbleFold s.pacc)) s) := by
  rw [exec, execPfold, answer_checkReserved_of_eq_zero rfl]
  rfl

/-- Settles O37: the value is the fold, whose bits are as the statement says. -/
theorem pfoldCompletes : Obligations.PfoldCompletes := fun s =>
  ⟨nibbleFold s.pacc, fun _ hj => getLsbD_nibbleFold s.pacc hj, exec_pfold_zero s⟩

/-! ### Runs -/

/-- A step at the word of an operation is that operation, with its response. -/
theorem step_encode {s t : State} {i : Instr} {rest : List HostAction} (hadm : s.cfg.admitted = true)
    (hi : s.inbox = .word (encode i) :: rest) (hexec : exec i (withInbox s rest) = .next t) :
    step s = .next (giveResponse t) :=
  step_of_decode_ok hadm hi (decodeOfEncodeIsTheOperation i) hexec

/-- The bytes that a run of PXOR words folds in: those of the words without reserved bits. -/
def foldedBytes (words : List (BitVec 20 × Byte)) : List Byte := (words.filter fun p => p.1 == 0).map Prod.snd

/-- A PCLR word clears PACC. -/
theorem step_pclr {s : State} {rest : List HostAction} (hadm : s.cfg.admitted = true)
    (hi : s.inbox = .word (encode (.pclr 0)) :: rest) :
    ∃ t, step s = .next t ∧ t.cfg = s.cfg ∧ t.inbox = rest ∧ t.pacc = 0 :=
  ⟨_, step_encode hadm hi (pclrCompletes _), rfl, rfl, rfl⟩

/-- A PXOR word folds in its byte, or raises RSVD and folds in nothing. -/
theorem step_pxor {s : State} {p : BitVec 20 × Byte} {rest : List HostAction} (hadm : s.cfg.admitted = true)
    (hi : s.inbox = .word (encode (.pxor p.1 p.2)) :: rest) :
    ∃ t, step s = .next t ∧ t.cfg = s.cfg ∧ t.inbox = rest ∧
      t.pacc = s.pacc ^^^ xorBytes (foldedBytes [p]) := by
  obtain ⟨r, b⟩ := p
  by_cases hr : r = 0#20
  · subst hr
    exact ⟨_, step_encode hadm hi (pxorCompletes _ b), rfl, rfl, by simp [foldedBytes, completionResponse]⟩
  · have hill : (Instr.pxor r b).WellFormed ≠ true := by simpa [Instr.WellFormed] using hr
    exact ⟨_, step_encode hadm hi (exec_of_not_wellFormed hill _), rfl, rfl, by simp [foldedBytes, hr]⟩

/-- PXOR words and then PFOLD answer the fold of PACC and the folded bytes. -/
theorem run_pxor_pfold (words : List (BitVec 20 × Byte)) (rest : List HostAction) (s : State)
    (hadm : s.cfg.admitted = true)
    (hi : s.inbox = (words.map fun p => .word (encode (.pxor p.1 p.2))) ++ .word (encode (.pfold 0)) :: rest) :
    ∃ t, Host.Core.run Sys2Proof.core (words.length + 1) s = .next t ∧ t.inbox = rest ∧
      t.result = zext (nibbleFold (s.pacc ^^^ xorBytes (foldedBytes words))) ∧
      t.pacc = s.pacc ^^^ xorBytes (foldedBytes words) := by
  induction words generalizing s with
  | nil =>
    refine ⟨_, (run_core_succ (step_encode hadm hi (exec_pfold_zero _))).trans (run_core_zero _), rfl, ?_, ?_⟩ <;>
    simp [foldedBytes]
  | cons p words ih =>
    obtain ⟨u, hstep, hcfg, hinbox, hpacc⟩ := step_pxor hadm hi
    obtain ⟨t, hrun, hrest, hresult, hpacc'⟩ := ih u (by rw [hcfg, hadm]) hinbox
    have hfold : s.pacc ^^^ xorBytes (foldedBytes (p :: words)) = u.pacc ^^^ xorBytes (foldedBytes words) := by
      have happend : foldedBytes (p :: words) = foldedBytes [p] ++ foldedBytes words := by
        rw [foldedBytes, foldedBytes, foldedBytes, ← List.map_append, ← List.filter_append, List.singleton_append]
      rw [happend, xorBytes_append, hpacc, BitVec.xor_assoc]
    rw [hfold]
    exact ⟨t, (run_core_succ hstep).trans hrun, hrest, hresult, hpacc'⟩

/-- Settles O38: PCLR starts PACC at 0, and the words after it fold their bytes into it. -/
theorem parityRunComputesParity : Obligations.ParityRunComputesParity := by
  intro words rest s hadm hi
  obtain ⟨u, hstep, hcfg, hinbox, hzero⟩ := step_pclr hadm hi
  obtain ⟨t, hrun, hrest, hresult, hpacc⟩ := run_pxor_pfold words rest u (by rw [hcfg, hadm]) hinbox
  have hfold : u.pacc ^^^ xorBytes (foldedBytes words) = xorBytes (foldedBytes words) := by simp [hzero]
  rw [hfold] at hresult hpacc
  exact ⟨t, (run_core_succ hstep).trans hrun, hrest, hresult, hpacc.trans (xorBytes_eq_foldr _)⟩

end Sys2Proof.Machine
end

section
/-! BUILD against the frame of the spec, its errors in order, and the frame's properties (43_frame_assembler.md R140 to
R149; 60_exceptions.md R203). -/

namespace Sys2Proof.Machine

/-! ### The frame a command gives -/

/-- The twelve bytes of a frame's body, closed by their parity byte (43_frame_assembler.md R141 step 5). -/
def closeFrame (body : List Byte) : List Byte := body ++ [parityByte body]

/-- What a command that gives a frame tells of it: its variable bytes are those of the power, the fan and the ion
selection. -/
theorem commandFrame_eq_ok {cfg : Config} {c : Command} {F : List Byte} (h : commandFrame cfg c = .ok F) :
    ∃ power b4 b6, fanByte cfg power c.fan = .ok b6 ∧
      F = closeFrame (frameBody b4 (encPower power) b6 (ionByte c.ion)) := by
  rcases commandFrame_cases cfg c with ⟨power, G, -, -, -, hbuild, hG⟩ | ⟨e, -, he⟩
  · obtain rfl : F = G := by simpa [h] using hG
    rcases buildFrame_cases cfg power (temperatureOperand c) c.fan c.ion with ⟨b4, b6, -, hfan, hF⟩ | ⟨e, -, he⟩
    · exact ⟨power, b4, b6, hfan, by simpa [hbuild, closeFrame] using hF⟩
    · rw [hbuild] at he
      cases he
  · rw [h] at he
    cases he

/-- An on command with a temperature gives what buildFrame gives. -/
theorem commandFrame_on {cfg : Config} {c : Command} (hrsvd : c.rsvd = 0) (hon : c.pwr = .on) (htemp : c.tempV = true) :
    commandFrame cfg c = buildFrame cfg true c.temp.toInt c.fan c.ion := by
  have hres : checkReserved c.rsvd = .ok () := if_pos hrsvd
  rw [commandFrame, hres, hon, htemp]
  rfl

/-- The table's byte 4 is the temperature's code in the high nibble (41_field_encoder.md R113). -/
theorem byte4_of_mem_temperatureByteTable :
    ∀ row ∈ temperatureByteTable, row.2 = (acceptedCode row.1).setWidth 8 <<< (4 : Nat) := by decide

/-- The frame of an on command whose temperature and fan are in the tables. -/
theorem buildFrame_on {cfg : Config} {t : Int} {sel : FanSel} {b4 b6 : Byte} (ion : Bool)
    (ht : TemperatureAccepted cfg t) (h4 : (t, b4) ∈ temperatureByteTable) (h6 : (sel, b6) ∈ fanTable) :
    buildFrame cfg true t sel ion = .ok (closeFrame (frameBody b4 (encPower true) b6 (ionByte ion))) := by
  have htemp : temperatureByte cfg true t = .ok b4 := by
    rw [temperatureByte, encTemp_of_accepted ht]
    exact congrArg Except.ok (byte4_of_mem_temperatureByteTable (t, b4) h4).symm
  have hfan : fanByte cfg true sel = .ok b6 := encFan_of_mem_fanTable (sel, b6) h6
  rw [buildFrame, htemp, hfan]
  rfl

/-- The model gives every command the frame that the spec gives it. -/
theorem commandFrame_of_commandHasFrame {cfg : Config} {c : Command} {F : List Byte} (h : CommandHasFrame cfg c F) :
    commandFrame cfg c = .ok F := by
  obtain ⟨hrsvd, b4, b6, body, hbytes, rfl, rfl⟩ := h
  rw [← ionByte_eq]
  rcases hbytes with ⟨hoff, rfl, rfl⟩ | ⟨hon, htempV, ht, h4, h6⟩
  · rw [commandFrame_off hrsvd hoff, hoff]
    rfl
  · rw [commandFrame_on hrsvd hon htempV, buildFrame_on c.ion ht h4 h6, hon]
    rfl

/-! ### BUILD -/

/-- BUILD and SEND raise the error of their command, and write nothing. -/
theorem exec_of_commandFrame_eq_error {i : Instr} {c : Command} {s : State} {e : Cause}
    (hi : i = .build c ∨ i = .send c) (h : commandFrame s.cfg c = .error e) :
    exec i s = .next (errorResponse e.code s) := by
  rcases hi with rfl | rfl
  · rw [exec, execBuild, h]
    rfl
  · rw [exec, execSend, h]
    rfl

/-- What a next state tells of the BUILD that gave it: the error of its command, or the command's frame stored. -/
theorem exec_build_eq_next {c : Command} {s t : State} (h : exec (.build c) s = .next t) :
    (∃ e, commandFrame s.cfg c = .error e ∧ t = errorResponse e.code s) ∨
      (∃ F, commandFrame s.cfg c = .ok F ∧ t = complete (zext (F.getD 12 0)) (storeFrame s F)) := by
  cases hF : commandFrame s.cfg c with
  | error e => exact .inl ⟨e, rfl, by simpa [h] using exec_of_commandFrame_eq_error (.inl rfl) hF⟩
  | ok F => exact .inr ⟨F, rfl, by simpa [h] using exec_build_of_commandFrame hF⟩

/-- A BUILD that completes has stored the frame of its command. -/
theorem exec_build_completed {c : Command} {s t : State} (h : exec (.build c) s = .next t) (herr : t.err = false) :
    ∃ F, commandFrame s.cfg c = .ok F ∧ t = complete (zext (F.getD 12 0)) (storeFrame s F) := by
  rcases exec_build_eq_next h with ⟨e, -, rfl⟩ | hF
  · cases herr
  · exact hF

/-- FV is all ones exactly where every frame byte holds a value. -/
theorem fv_eq_allOnes_iff (s : State) : fv s = 0x1FFF ↔ ∀ i, i < 13 → frameValid s i = true := by
  have hones : (0x1FFF : BitVec 13) = BitVec.allOnes 13 := rfl
  rw [hones]
  constructor
  · intro h i hi
    have hbit := getLsbD_fv s i
    rw [h, BitVec.getLsbD_allOnes, decide_eq_true hi, Bool.true_and] at hbit
    exact hbit.symm
  · intro h
    apply BitVec.eq_of_getLsbD_eq
    intro i hi
    rw [getLsbD_fv, BitVec.getLsbD_allOnes, decide_eq_true hi, Bool.true_and, h i hi]

/-- A stored frame of 13 bytes sets all of FV. -/
theorem fv_of_frame_ofList {s : State} {F : List Byte} (hs : s.frame = Memory.ofList 0 F) (hF : F.length = frameLen) :
    fv s = 0x1FFF := by
  rw [fv_eq_allOnes_iff]
  intro i hi
  rw [frameValid, hs, read_ofList, List.getElem?_eq_getElem (by rw [hF]; exact hi), Option.isSome_some]

/-- Settles O39: the command's frame is the one the spec gives it, and BUILD stores it whole. -/
theorem buildWritesTheFrame : Obligations.BuildWritesTheFrame := by
  intro s c F h
  have hF := commandFrame_of_commandHasFrame h
  have hlength := length_commandFrame hF
  refine ⟨_, F[12]'(by rw [hlength]; decide), exec_build_of_commandFrame hF, List.getElem?_eq_getElem _, ?_,
    fun i => read_ofList i F, fv_of_frame_ofList rfl hlength⟩
  rw [List.getD_eq_getElem F 0 (by rw [hlength]; decide)]
  rfl

/-! ### The errors in order -/

/-- The power selection is checked after the reserved bits. -/
theorem commandFrame_of_powerOperand_eq_error {cfg : Config} {c : Command} {e : Cause} (hrsvd : c.rsvd = 0)
    (h : powerOperand c.pwr = .error e) : commandFrame cfg c = .error e := by
  have hres : checkReserved c.rsvd = .ok () := if_pos hrsvd
  rw [commandFrame, hres, h]
  rfl

/-- An on command needs a temperature before anything reads it. -/
theorem commandFrame_of_tempMissing {cfg : Config} {c : Command} (hrsvd : c.rsvd = 0) (hon : c.pwr = .on)
    (htemp : c.tempV = false) : commandFrame cfg c = .error .tempMissing := by
  have hres : checkReserved c.rsvd = .ok () := if_pos hrsvd
  rw [commandFrame, hres, hon, htemp]
  rfl

/-- A temperature that is not accepted fails before the fan is read. -/
theorem buildFrame_of_not_accepted {cfg : Config} {t : Int} {sel : FanSel} {ion : Bool}
    (h : ¬ TemperatureAccepted cfg t) : buildFrame cfg true t sel ion = .error .tempRange := by
  have htemp : temperatureByte cfg true t = .error .tempRange := by
    rw [temperatureByte, encTemp_of_not_accepted h]
    rfl
  rw [buildFrame, htemp]
  rfl

/-- With an accepted temperature, a fan selection without a byte is the error. -/
theorem buildFrame_of_encFan_eq_error {cfg : Config} {t : Int} {sel : FanSel} {ion : Bool} {e : Cause}
    (ht : TemperatureAccepted cfg t) (h : encFan sel = .error e) : buildFrame cfg true t sel ion = .error e := by
  have htemp : temperatureByte cfg true t = .ok ((acceptedCode t).setWidth 8 <<< (4 : Nat)) := by
    rw [temperatureByte, encTemp_of_accepted ht]
    rfl
  have hfan : fanByte cfg true sel = .error e := h
  rw [buildFrame, htemp, hfan]
  rfl

/-- Settles O41: one clause for each check, in the order in which the frame of a command makes them. -/
theorem buildAndSendRaiseTheFirstError : Obligations.BuildAndSendRaiseTheFirstError := by
  intro s c i hi
  refine ⟨fun h => ?_, fun h0 hpwr => ?_, fun h0 hpwr => ?_, fun h0 hon htemp => ?_, fun h0 hon htemp hrange => ?_,
    fun h0 hon htemp hrange hfan => ?_, fun h0 hon htemp hrange hfan => ?_⟩
  · exact exec_of_commandFrame_eq_error hi (commandFrame_of_rsvd_ne h)
  · exact exec_of_commandFrame_eq_error hi (commandFrame_of_powerOperand_eq_error h0 (by rw [hpwr]; rfl))
  · exact exec_of_commandFrame_eq_error hi (commandFrame_of_powerOperand_eq_error h0 (by rw [hpwr]; rfl))
  · exact exec_of_commandFrame_eq_error hi (commandFrame_of_tempMissing h0 hon htemp)
  · have herror := (commandFrame_on h0 hon htemp).trans (buildFrame_of_not_accepted hrange)
    exact exec_of_commandFrame_eq_error hi herror
  · have hmissing : encFan c.fan = .error .fanMissing := by rw [hfan]; rfl
    have herror := (commandFrame_on h0 hon htemp).trans (buildFrame_of_encFan_eq_error hrange hmissing)
    exact exec_of_commandFrame_eq_error hi herror
  · have hunrecognized := encFan_of_unrecognized hfan
    have herror := (commandFrame_on h0 hon htemp).trans (buildFrame_of_encFan_eq_error hrange hunrecognized)
    exact exec_of_commandFrame_eq_error hi herror

/-! ### The properties of a built frame -/

/-- Every fan byte has bit 7 set (41_field_encoder.md R114). -/
theorem encFan_bit7 {sel : FanSel} {b : Byte} (h : encFan sel = .ok b) : b.getLsbD 7 = true := by
  cases sel <;> cases h <;> rfl

/-- Byte 6 has bit 7 set: a fan byte does, and so does the template of an admitted configuration. -/
theorem fanByte_bit7 {cfg : Config} {power : Bool} {sel : FanSel} {b : Byte} (hadm : cfg.admitted = true)
    (h : fanByte cfg power sel = .ok b) : b.getLsbD 7 = true := by
  cases power with
  | false => cases h; exact hadm
  | true => exact encFan_bit7 h

/-- The parity byte has bit 7 set and bits 6 to 4 clear. -/
theorem parityByte_high_bits (body : List Byte) :
    (parityByte body).getLsbD 7 = true ∧ (parityByte body).extractLsb' 4 3 = 0 := by
  have hnibble : ∀ p : BitVec 4,
      (0x80#8 ||| p.setWidth 8).getLsbD 7 = true ∧ (0x80#8 ||| p.setWidth 8).extractLsb' 4 3 = 0 := by decide
  exact hnibble (parity body)

/-- The fixed bytes of a frame and the places of its other ones. -/
theorem closeFrame_frameBody_layout (b4 b5 b6 b11 : Byte) :
    closeFrame (frameBody b4 b5 b6 b11) = [0x55, 0x5A, 0xF3, 0x08, b4, b5, b6, 0x18, 0x10, 0x01, 0x00, b11,
      parityByte (frameBody b4 b5 b6 b11)] := rfl

/-- Settles O42: the fixed bytes stand in every frame, and each of the others has its few values or its bits. -/
theorem builtFramesHaveTheFrameProperties : Obligations.BuiltFramesHaveTheFrameProperties := by
  intro s t c hadm hexec herr
  obtain ⟨F, hF, rfl⟩ := exec_build_completed hexec herr
  obtain ⟨power, b4, b6, hfan, rfl⟩ := commandFrame_eq_ok hF
  have hpower : encPower power = 0x84 ∨ encPower power = 0x88 := by cases power <;> simp [encPower]
  have hion : ionByte c.ion = 0x0F ∨ ionByte c.ion = 0x2F := by cases c.ion <;> simp [ionByte, encIon]
  obtain ⟨hbit7, hzero⟩ := parityByte_high_bits (frameBody b4 (encPower power) b6 (ionByte c.ion))
  refine ⟨_, rfl, fun i => read_ofList i _, rfl, rfl, ?_, ⟨b6, rfl, fanByte_bit7 hadm hfan⟩, ?_, _, rfl, rfl, hbit7,
    hzero⟩
  · rw [closeFrame_frameBody_layout]
    simpa using hpower
  · rw [closeFrame_frameBody_layout]
    simpa using hion

/-! ### The parity byte in closed form -/

/-- The XOR of a body is that of its fixed bytes, 0xFD, and its variable bytes. -/
theorem xorBytes_frameBody (b4 b5 b6 b11 : Byte) :
    xorBytes (frameBody b4 b5 b6 b11) = 0xFD ^^^ b4 ^^^ b5 ^^^ b6 ^^^ b11 := by
  have hfixed : (0xFD : Byte) = 0x55 ^^^ 0x5A ^^^ 0xF3 ^^^ 0x08 ^^^ 0x18 ^^^ 0x10 ^^^ 0x01 ^^^ 0x00 ^^^ 0 := by
    decide
  simp only [frameBody, xorBytes_cons, xorBytes_nil]
  rw [hfixed]
  ac_rfl

/-- Settles O43: the parity byte folds the XOR of the body, which is that of one byte. -/
theorem parityByteHasAClosedForm : Obligations.ParityByteHasAClosedForm := by
  refine ⟨by decide, fun s t c hexec herr => ?_⟩
  obtain ⟨F, hF, rfl⟩ := exec_build_completed hexec herr
  obtain ⟨power, b4, b6, -, rfl⟩ := commandFrame_eq_ok hF
  refine ⟨b4, encPower power, b6, ionByte c.ion, read_ofList 4 _, read_ofList 5 _, read_ofList 6 _, read_ofList 11 _,
    (read_ofList 12 _).trans ?_⟩
  have hparity : parity (frameBody b4 (encPower power) b6 (ionByte c.ion)) =
      parity [0xFD ^^^ b4 ^^^ encPower power ^^^ b6 ^^^ ionByte c.ion] := by
    rw [parity, parity, xorBytes_frameBody, xorBytes_cons, xorBytes_nil]
    simp
  rw [closeFrame_frameBody_layout, parityByte, hparity]
  rfl

/-! ### BUILD and SEND from different states -/

/-- What a next state tells of the SEND that gave it: the error of its command, or the command's frame and that frame's
sequence stored. -/
theorem exec_send_eq_next {c : Command} {s t : State} (h : exec (.send c) s = .next t) :
    (∃ e, commandFrame s.cfg c = .error e ∧ t = errorResponse e.code s) ∨
      (∃ F S, commandFrame s.cfg c = .ok F ∧ encodePulses F = .ok S ∧
        t = complete 211 (storePulse (storeFrame s F) S)) := by
  cases hF : commandFrame s.cfg c with
  | error e => exact .inl ⟨e, rfl, by simpa [h] using exec_of_commandFrame_eq_error (.inr rfl) hF⟩
  | ok F =>
    obtain ⟨S, hS, hsend⟩ := exec_send_of_commandFrame hF
    exact .inr ⟨F, S, rfl, hS, by simpa [h] using hsend⟩

/-- Settles O44: the error, or the frame and its sequence, come from the command and the parameters, and FRAME and PULSE
are replaced as a whole. -/
theorem buildAndSendDependOnlyOnWordAndParameters : Obligations.BuildAndSendDependOnlyOnWordAndParameters := by
  intro s s' t t' c hcfg
  constructor
  · intro h h'
    have hnext := exec_build_eq_next h'
    rw [← hcfg] at hnext
    rcases exec_build_eq_next h with ⟨e, he, rfl⟩ | ⟨F, hF, rfl⟩
    · rcases hnext with ⟨e', -, rfl⟩ | ⟨F', hF', -⟩
      · exact ⟨rfl, rfl, fun herr => by cases herr⟩
      · simp [he] at hF'
    · rcases hnext with ⟨e', he', -⟩ | ⟨F', hF', rfl⟩
      · simp [hF] at he'
      · obtain rfl : F = F' := by simpa [hF] using hF'
        exact ⟨rfl, rfl, fun _ => rfl⟩
  · intro h h'
    have hnext := exec_send_eq_next h'
    rw [← hcfg] at hnext
    rcases exec_send_eq_next h with ⟨e, he, rfl⟩ | ⟨F, S, hF, hS, rfl⟩
    · rcases hnext with ⟨e', -, rfl⟩ | ⟨F', S', hF', -⟩
      · exact ⟨rfl, rfl, fun herr => by cases herr⟩
      · simp [he] at hF'
    · rcases hnext with ⟨e', he', -⟩ | ⟨F', S', hF', hS', rfl⟩
      · simp [hF] at he'
      · obtain rfl : F = F' := by simpa [hF] using hF'
        obtain rfl : S = S' := by simpa [hS] using hS'
        exact ⟨rfl, rfl, fun _ => ⟨rfl, rfl⟩⟩

end Sys2Proof.Machine
end

section
/-! The pulse sequence of a frame, entry by entry (44_ir_pulse_sequence_generator.md R160 to R162). -/

namespace Sys2Proof.Machine

/-! ### Positions -/

/-- A sequence is the header and then the durations of the frame's bytes. -/
theorem encodePulses_eq_ok {F : List Byte} {S : List Nat} (h : encodePulses F = .ok S) :
    S = [3600, 1800, 450] ++ F.flatMap byteDurations := by
  obtain ⟨hF, -⟩ := length_encodePulses h
  rw [encodePulses_of_length hF] at h
  cases h
  rfl

/-- Entry 3 + 16i + r is duration r of byte i. -/
theorem getElem?_encodePulses {F : List Byte} {S : List Nat} (h : encodePulses F = .ok S) (i : Nat) {r : Nat}
    (hr : r < 16) : S[3 + 16 * i + r]? = F[i]?.bind fun x => (byteDurations x)[r]? := by
  have hheader : [3600, 1800, 450].length ≤ 3 + 16 * i + r := by simp only [List.length_cons, List.length_nil]; omega
  have hoffset : 3 + 16 * i + r - [3600, 1800, 450].length = 16 * i + r := by
    simp only [List.length_cons, List.length_nil]; omega
  rw [encodePulses_eq_ok h, List.getElem?_append_right hheader, hoffset, getElem?_flatMap_byteDurations F i r hr]

/-- The two entries of bit b of byte i (44_ir_pulse_sequence_generator.md R161). -/
theorem getElem?_encodePulses_bit {F : List Byte} {S : List Nat} (h : encodePulses F = .ok S) {i b : Nat} {x : Byte}
    (hx : F[i]? = some x) (hb : b ≤ 7) :
    S[3 + 16 * i + 2 * (7 - b)]? = some (if x.getLsbD b then 1350 else 450) ∧
      S[3 + 16 * i + 2 * (7 - b) + 1]? = some 450 := by
  obtain ⟨hfirst, hsecond⟩ := getElem?_byteDurations x hb
  constructor
  · rw [getElem?_encodePulses h i (by omega), hx, Option.bind_some, hfirst]
    rfl
  · rw [Nat.add_assoc, getElem?_encodePulses h i (by omega), hx, Option.bind_some, hsecond]
    rfl

/-- Every even entry from 4 on is the second one of some bit. -/
theorem getElem?_encodePulses_even {F : List Byte} {S : List Nat} (h : encodePulses F = .ok S) {j : Nat} (hlo : 4 ≤ j)
    (hhi : j ≤ 210) (heven : j % 2 = 0) : S[j]? = some 450 := by
  obtain ⟨hF, -⟩ := length_encodePulses h
  have hbyte : (j - 4) / 16 < F.length := by rw [hF, frameLen]; omega
  have hbit := (getElem?_encodePulses_bit h (b := 7 - (j - 4) % 16 / 2) (List.getElem?_eq_getElem hbyte) (by omega)).2
  have hplace : 3 + 16 * ((j - 4) / 16) + 2 * (7 - (7 - (j - 4) % 16 / 2)) + 1 = j := by omega
  rwa [hplace] at hbit

/-! ### Values -/

/-- A data bit lasts T or 3T, then T. -/
theorem mem_bitDurations {b : Bool} {v : Nat} (h : v ∈ bitDurations b) : v = 450 ∨ v = 1350 := by
  cases b <;> simp [bitDurations, tUs] at h <;> omega

/-- The only durations of a sequence are T, 3T, 4T and 8T. -/
theorem mem_encodePulses {F : List Byte} {S : List Nat} (h : encodePulses F = .ok S) {v : Nat} (hv : v ∈ S) :
    v = 450 ∨ v = 1350 ∨ v = 1800 ∨ v = 3600 := by
  rw [encodePulses_eq_ok h, List.mem_append] at hv
  rcases hv with hheader | hbody
  · simp only [List.mem_cons, List.not_mem_nil, or_false] at hheader
    omega
  · obtain ⟨x, -, hx⟩ := List.mem_flatMap.1 hbody
    obtain ⟨b, -, hb⟩ := List.mem_flatMap.1 hx
    have hdata := mem_bitDurations hb
    omega

/-- Settles O45: the header, the two entries of each bit, the even entries among them, and the four durations. -/
theorem pulsePositions : Obligations.PulsePositions := by
  intro F S _ h
  have hS := encodePulses_eq_ok h
  refine ⟨by rw [hS]; rfl, by rw [hS]; rfl, by rw [hS]; rfl, fun i b x hx hb => getElem?_encodePulses_bit h hx hb,
    fun j hlo hhi heven => getElem?_encodePulses_even h hlo hhi heven, fun v hv => ?_⟩
  have hvalue := mem_encodePulses h hv
  omega

/-! ### The total duration -/

/-- A bit lasts 2T, and a 1 another 2T. -/
theorem sum_bitDurations (b : Bool) : (bitDurations b).sum = 900 + 900 * b.toNat := by cases b <;> rfl

/-- A byte lasts 16T, and another 2T for each of its 1 bits. -/
theorem sum_byteDurations (x : Byte) :
    (byteDurations x).sum = 7200 + 900 * ((List.range 8).map fun b => (x.getLsbD b).toNat).sum := by
  simp only [byteDurations, List.flatMap_cons, List.flatMap_nil, List.sum_append, sum_bitDurations, List.range_succ,
    List.range_zero, List.map_append, List.map_cons, List.map_nil, List.sum_cons, List.sum_nil]
  omega

/-- The 1 bits of a sequence, byte by byte. -/
theorem popcount_cons (x : Byte) (F : List Byte) :
    popcount (x :: F) = ((List.range 8).map fun b => (x.getLsbD b).toNat).sum + popcount F := rfl

/-- The durations of a byte sequence add up over its bytes. -/
theorem sum_flatMap_byteDurations (F : List Byte) :
    (F.flatMap byteDurations).sum = 7200 * F.length + 900 * popcount F := by
  induction F with
  | nil => rfl
  | cons x F ih =>
    rw [List.flatMap_cons, List.sum_append, ih, sum_byteDurations, popcount_cons, List.length_cons]
    omega

/-! ### Injectivity -/

/-- The first entry of a bit tells the bit. -/
theorem getLsbD_iff_entry {F : List Byte} {S : List Nat} (h : encodePulses F = .ok S) {i b : Nat} {x : Byte}
    (hx : F[i]? = some x) (hb : b ≤ 7) : x.getLsbD b = true ↔ S[3 + 16 * i + 2 * (7 - b)]? = some 1350 := by
  rw [(getElem?_encodePulses_bit h hx hb).1]
  cases x.getLsbD b <;> simp

/-- Two frames with one sequence have the same bits at the same places. -/
theorem encodePulses_injective {F G : List Byte} {S : List Nat} (hF : encodePulses F = .ok S)
    (hG : encodePulses G = .ok S) : F = G := by
  have hlength : F.length = G.length := (length_encodePulses hF).1.trans (length_encodePulses hG).1.symm
  refine List.ext_getElem hlength fun i hi hi' => ?_
  apply BitVec.eq_of_getLsbD_eq
  intro b hb
  have hbit := (getLsbD_iff_entry hF (List.getElem?_eq_getElem hi) (Nat.le_of_lt_succ hb)).trans
    (getLsbD_iff_entry hG (List.getElem?_eq_getElem hi') (Nat.le_of_lt_succ hb)).symm
  exact Bool.eq_iff_iff.2 hbit

/-- The marks after the first last T: entry 2 of the header, and the even entries. -/
theorem getElem?_encodePulses_mark {F : List Byte} {S : List Nat} (h : encodePulses F = .ok S) {j v : Nat}
    (hv : S[j]? = some v) (hmark : intervalAt j = .mark) (hj : j ≠ 0) : v = 450 := by
  have heven : j % 2 = 0 := by
    by_contra hodd
    simp [intervalAt, hodd] at hmark
  have hlast : j < 211 := (List.getElem?_eq_some_iff.1 hv).1.trans_eq (length_encodePulses h).2
  have hT : S[j]? = some 450 := by
    by_cases h2 : j = 2
    · rw [h2, encodePulses_eq_ok h]
      rfl
    · exact getElem?_encodePulses_even h (by omega) (by omega) heven
  exact Option.some.inj (hv.symm.trans hT)

/-- Settles O46: the header lasts 13T and the 13 bytes the rest; the entries of its bits determine the frame. -/
theorem pulseSequenceLaws : Obligations.PulseSequenceLaws := by
  refine ⟨fun F S hlength h => ?_, fun F G S => encodePulses_injective⟩
  have hS := encodePulses_eq_ok h
  refine ⟨(length_encodePulses h).2, by rw [hS]; rfl, ?_, fun i b x => getLsbD_iff_entry h,
    fun j v => getElem?_encodePulses_mark h⟩
  rw [hS, List.sum_append, sum_flatMap_byteDurations, hlength]
  simp only [List.sum_cons, List.sum_nil]
  omega

/-- Settles O47: the length check is encodePulses' only check. -/
theorem encodePulsesChecksTheLength : Obligations.EncodePulsesChecksTheLength :=
  fun _ => ⟨fun h => ⟨_, encodePulses_of_length h⟩, fun h => if_neg h⟩

end Sys2Proof.Machine
end

section
/-! ENCODE and SEND, and what they leave in PULSE and PACKED (44_ir_pulse_sequence_generator.md R164 to R168). -/

namespace Sys2Proof.Machine

/-! ### Reads of a stored sequence -/

/-- A buffer that holds a frame's sequence reads as it, entry by entry. -/
theorem read_of_pulseEncodes {p : Memory Word} {F : List Byte} (h : PulseEncodes p F) :
    ∃ S, encodePulses F = .ok S ∧ ∀ j, p.read j = S[j]?.map (BitVec.ofNat 32) := by
  obtain ⟨S, hS, rfl⟩ := h
  exact ⟨S, hS, fun j => by rw [read_ofList, List.getElem?_map]⟩

/-- The two stored entries of bit b of byte i. -/
theorem read_pulse_bit {p : Memory Word} {F : List Byte} (h : PulseEncodes p F) {i b : Nat} {x : Byte}
    (hx : F[i]? = some x) (hb : b ≤ 7) :
    p.read (3 + 16 * i + 2 * (7 - b)) = some (if x.getLsbD b then 1350 else 450) ∧
      p.read (3 + 16 * i + 2 * (7 - b) + 1) = some 450 := by
  obtain ⟨S, hS, hread⟩ := read_of_pulseEncodes h
  obtain ⟨hfirst, hsecond⟩ := getElem?_encodePulses_bit hS hx hb
  rw [hread, hread, hfirst, hsecond]
  cases x.getLsbD b <;> exact ⟨rfl, rfl⟩

/-- The three stored entries of the header. -/
theorem read_pulse_header {p : Memory Word} {F : List Byte} (h : PulseEncodes p F) :
    p.read 0 = some 3600 ∧ p.read 1 = some 1800 ∧ p.read 2 = some 450 := by
  obtain ⟨S, hS, hread⟩ := read_of_pulseEncodes h
  rw [hread, hread, hread, encodePulses_eq_ok hS]
  exact ⟨rfl, rfl, rfl⟩

/-- Nothing is stored past entry 210. -/
theorem read_pulse_past_end {p : Memory Word} {F : List Byte} (h : PulseEncodes p F) {j : Nat} (hj : 211 ≤ j) :
    p.read j = none := by
  obtain ⟨S, hS, hread⟩ := read_of_pulseEncodes h
  obtain ⟨-, hlength⟩ := length_encodePulses hS
  rw [hread, List.getElem?_eq_none (by rw [hlength]; exact hj), Option.map_none]

/-! ### ENCODE -/

/-- ENCODE without reserved bits ends as the frame it reads does. -/
theorem exec_encode_zero (s : State) :
    exec (.encode 0) s =
      answer s (readFrame s >>= fun F => encodePulses F >>= fun S => pure (storePulse s S, 211)) := by
  rw [exec, execEncode, answer_checkReserved_of_eq_zero rfl]

/-- ENCODE completes with the sequence of the frame it reads, which has the 13 bytes encodePulses asks for. -/
theorem exec_encode_of_readFrame {s : State} {F : List Byte} {S : List Nat} (h : readFrame s = .ok F)
    (hS : encodePulses F = .ok S) : exec (.encode 0) s = .next (complete 211 (storePulse s S)) := by
  rw [exec_encode_zero, h]
  change answer s (encodePulses F >>= fun S => pure (storePulse s S, 211)) = _
  rw [hS]
  rfl

/-- Settles O48: the frame as it stands is read whole, and its sequence replaces PULSE. -/
theorem encodeWritesThePulses : Obligations.EncodeWritesThePulses := by
  intro s F hlength hread
  obtain ⟨S, hS⟩ := (encodePulsesChecksTheLength F).1 hlength
  have hpulse : PulseEncodes (storePulse s S).pulse F := ⟨S, hS, rfl⟩
  obtain ⟨h0, h1, h2⟩ := read_pulse_header hpulse
  exact ⟨_, exec_encode_of_readFrame (readFrame_eq_ok.2 ⟨hlength, hread⟩) hS, rfl, full_of_pulseEncodes hpulse,
    h0, h1, h2, fun i b x hx hb => read_pulse_bit hpulse hx hb, fun j hj => read_pulse_past_end hpulse hj⟩

/-- Settles O49: an FV that is not all ones has a byte without a value, which ENCODE finds. -/
theorem encodeOfAnUnwrittenFrameRaises : Obligations.EncodeOfAnUnwrittenFrameRaises := by
  intro s hfv
  obtain ⟨i, hi, hvalid⟩ : ∃ i, i < 13 ∧ frameValid s i ≠ true := by
    rw [Ne, fv_eq_allOnes_iff] at hfv
    simpa using hfv
  have hnone : s.frame.read i = none := by simpa [frameValid] using hvalid
  have herror : readFrame s = .error .unwritten := readFrame_eq_error.2 ⟨rfl, i, hi, hnone⟩
  rw [exec_encode_zero, herror]
  rfl

/-! ### SEND -/

/-- Settles O50: SEND stores the frame the spec gives the command, and that frame's sequence. -/
theorem sendWritesFrameAndPulses : Obligations.SendWritesFrameAndPulses := by
  intro s c F h
  have hF := commandFrame_of_commandHasFrame h
  obtain ⟨S, hS, hsend⟩ := exec_send_of_commandFrame hF
  have hpulse : PulseEncodes (storePulse (storeFrame s F) S).pulse F := ⟨S, hS, rfl⟩
  exact ⟨_, hsend, rfl, fun i => read_ofList i F, fv_of_frame_ofList rfl (length_commandFrame hF), hpulse,
    full_of_pulseEncodes hpulse⟩

/-- Settles O51: after a BUILD that completes, ENCODE reads back the frame just stored; an error of the command is the
error of both. -/
theorem sendIsBuildThenEncode : Obligations.SendIsBuildThenEncode := by
  intro c s u h
  rcases exec_build_eq_next h with ⟨e, he, rfl⟩ | ⟨F, hF, rfl⟩
  · exact ⟨fun herr => (by cases herr), fun _ => exec_of_commandFrame_eq_error (.inr rfl) he⟩
  · obtain ⟨S, hS, hsend⟩ := exec_send_of_commandFrame hF
    have hread : readFrame (complete (zext (F.getD 12 0)) (storeFrame s F)) = .ok F :=
      readFrame_storeFrame s (length_commandFrame hF)
    exact ⟨fun _ => hsend.trans (exec_encode_of_readFrame hread hS).symm, fun herr => by cases herr⟩

/-! ### PACKED -/

/-- An ENCODE or SEND that completes leaves the sequence of some frame, under the parameters it found. -/
theorem pulseEncodes_of_completed {i : Instr} {s t : State} (hi : (∃ r, i = .encode r) ∨ (∃ c, i = .send c))
    (h : exec i s = .next t) (herr : t.err = false) : t.cfg = s.cfg ∧ ∃ F, PulseEncodes t.pulse F := by
  rcases exec_eq_next h with ⟨c, -, rfl⟩ | ⟨u, r, hu, rfl⟩
  · cases herr
  · refine ⟨(writes_keep hu).1, ?_⟩
    rcases hi with ⟨r', rfl⟩ | ⟨c, rfl⟩
    · obtain ⟨F, S, -, hS, rfl⟩ := hu
      exact ⟨F, S, hS, rfl⟩
    · obtain ⟨F, S, -, hS, rfl⟩ := hu
      exact ⟨F, S, hS, rfl⟩

/-- The first twelve packed bytes are the header's three entries, low byte first. -/
theorem packed_of_pulseEncodes {s : State} {F : List Byte} (h : PulseEncodes s.pulse F)
    (hlittle : s.cfg.sinkEndian = .little) :
    ∃ bytes, packed s = some bytes ∧
      bytes.take 12 = [0x10, 0x0E, 0x00, 0x00, 0x08, 0x07, 0x00, 0x00, 0xC2, 0x01, 0x00, 0x00] := by
  refine ⟨_, if_pos (full_of_pulseEncodes h), ?_⟩
  obtain ⟨S, hS, hpulse⟩ := h
  rw [hlittle, hpulse, encodePulses_eq_ok hS]
  rfl

/-- Settles O53: whatever the frame, the sequence begins with the header. -/
theorem packedBeginsWithTheHeader : Obligations.PackedBeginsWithTheHeader := by
  intro s t i hlittle hi h herr
  obtain ⟨hcfg, F, hF⟩ := pulseEncodes_of_completed hi h herr
  exact packed_of_pulseEncodes hF (by rw [hcfg, hlittle])

end Sys2Proof.Machine
end

section
/-! Host access: FWR, FRD and PRD (45_host_access.md R180 to R183). -/

namespace Sys2Proof.Machine

/-! ### FWR -/

/-- FWR without reserved bits ends as its index check does. -/
theorem exec_fwr_zero (idx : BitVec 4) (b : Byte) (s : State) :
    exec (.fwr 0 idx b) s = answer s ((frameIndexOperand idx).map fun i => (writeFrameByte s i b, 0)) := by
  rw [exec, execFwr, answer_checkReserved_of_eq_zero rfl]
  rfl

/-- FWR writes its byte at a mapped index. -/
theorem exec_fwr_of_le {idx : BitVec 4} (hidx : idx.toNat ≤ 12) (b : Byte) (s : State) :
    exec (.fwr 0 idx b) s = .next (complete 0 (writeFrameByte s idx.toNat b)) := by
  have hindex : frameIndexOperand idx = .ok idx.toNat := if_neg (Nat.not_lt.2 hidx)
  rw [exec_fwr_zero, hindex]
  rfl

/-- Settles O54: the write reads back at its index and nowhere else. -/
theorem fwrWritesOneByte : Obligations.FwrWritesOneByte := by
  intro s idx b
  refine ⟨fun hidx => ⟨_, exec_fwr_of_le hidx b s, rfl, fun a => read_write s.frame idx.toNat a b, ?_⟩,
    fun hidx => ?_⟩
  · have h13 : idx.toNat < 13 := Nat.lt_succ_of_le hidx
    rw [getLsbD_fv, frameValid, complete_frame, writeFrameByte_frame, read_write_same, decide_eq_true h13]
    rfl
  · have hindex : frameIndexOperand idx = .error .indexRange := if_pos hidx
    rw [exec_fwr_zero, hindex]
    rfl

/-! ### FRD -/

/-- FRD without reserved bits ends as its index check and its read do. -/
theorem exec_frd_zero (idx : BitVec 4) (s : State) :
    exec (.frd 0 idx 0) s =
      answer s (frameIndexOperand idx >>= fun i => (valueOrUnwritten (s.frame.read i)).map fun b => (s, zext b)) := by
  have hrsvd : (0 : BitVec 16) ++ (0 : BitVec 8) = 0 := rfl
  rw [exec, execFrd, answer_checkReserved_of_eq_zero hrsvd]
  rfl

/-- FRD at a mapped index ends as its read does. -/
theorem exec_frd_of_le {idx : BitVec 4} (hidx : idx.toNat ≤ 12) (s : State) :
    exec (.frd 0 idx 0) s = answer s ((valueOrUnwritten (s.frame.read idx.toNat)).map fun b => (s, zext b)) := by
  have hindex : frameIndexOperand idx = .ok idx.toNat := if_neg (Nat.not_lt.2 hidx)
  rw [exec_frd_zero, hindex]
  rfl

/-- Settles O55: the index check comes first, then the read. -/
theorem frdReadsOneByte : Obligations.FrdReadsOneByte := by
  intro s idx
  refine ⟨fun b hidx hread => ?_, fun hidx hread => ?_, fun hidx => ?_⟩
  · rw [exec_frd_of_le hidx, hread]
    rfl
  · rw [exec_frd_of_le hidx, hread]
    rfl
  · have hindex : frameIndexOperand idx = .error .indexRange := if_pos hidx
    rw [exec_frd_zero, hindex]
    rfl

/-- Settles O57: the byte written is the byte read at that index. -/
theorem frdReturnsWhatFwrWrote : Obligations.FrdReturnsWhatFwrWrote := by
  intro s idx b hidx
  have hread := read_write_same s.frame idx.toNat b
  exact ⟨_, _, exec_fwr_of_le hidx b s, (frdReadsOneByte _ idx).1 b hidx hread, rfl, rfl, rfl⟩

/-! ### PRD -/

/-- PRD without reserved bits ends as its index check and its read do. -/
theorem exec_prd_zero (pidx : BitVec 8) (s : State) :
    exec (.prd 0 pidx) s = answer s (pulseIndexOperand pidx >>= fun j => (readPulse s j).map fun v => (s, v)) := by
  rw [exec, execPrd, answer_checkReserved_of_eq_zero rfl]
  rfl

/-- PRD at a mapped index ends as its read does. -/
theorem exec_prd_of_le {pidx : BitVec 8} (hidx : pidx.toNat ≤ 210) (s : State) :
    exec (.prd 0 pidx) s = answer s ((readPulse s pidx.toNat).map fun v => (s, v)) := by
  have hindex : pulseIndexOperand pidx = .ok pidx.toNat := if_neg (Nat.not_lt.2 hidx)
  rw [exec_prd_zero, hindex]
  rfl

/-- PRD completes with the entry it reads while PV is 1. -/
theorem exec_prd_of_read {pidx : BitVec 8} {s : State} {v : Word} (hidx : pidx.toNat ≤ 210) (hpv : pv s = true)
    (hread : s.pulse.read pidx.toNat = some v) : exec (.prd 0 pidx) s = .next (completionResponse v s) := by
  rw [exec_prd_of_le hidx, readPulse, if_pos hpv, hread]
  rfl

/-- Settles O56: the index check comes first, then PV, which tells whether every entry holds a value. -/
theorem prdReadsOneEntry : Obligations.PrdReadsOneEntry := by
  intro s pidx
  refine ⟨fun hidx hpv => ?_, fun hidx hpv => ?_, fun hidx => ?_⟩
  · obtain ⟨v, hread⟩ := read_isSome_of_full hpv (Nat.lt_succ_of_le hidx)
    exact ⟨v, hread, exec_prd_of_read hidx hpv hread⟩
  · have hunwritten : readPulse s pidx.toNat = .error .unwritten := if_neg (by rw [hpv]; decide)
    rw [exec_prd_of_le hidx, hunwritten]
    rfl
  · have hindex : pulseIndexOperand pidx = .error .indexRange := if_pos hidx
    rw [exec_prd_zero, hindex]
    rfl

/-- In a state that meets the invariant, PV tells that PULSE holds some frame's sequence. -/
theorem pulseEncodes_of_inv {s : State} (hinv : s.Inv) (hpv : pv s = true) : ∃ F, PulseEncodes s.pulse F := by
  rcases hinv.pulseWhole with hempty | hwhole
  · rw [pv_of_pulse_nil hempty] at hpv
    cases hpv
  · exact hwhole

/-- The last stored entry is the second one of the last bit. -/
theorem read_pulse_last {p : Memory Word} {F : List Byte} (h : PulseEncodes p F) : p.read 210 = some 450 := by
  obtain ⟨S, hS, hread⟩ := read_of_pulseEncodes h
  rw [hread, getElem?_encodePulses_even hS (by decide) le_rfl rfl]
  rfl

/-- Settles O58: PULSE holds a whole sequence, which begins with 8T and ends with T. -/
theorem prdReadsTheEndsOfEverySequence : Obligations.PrdReadsTheEndsOfEverySequence := by
  intro s hinv hpv
  obtain ⟨F, hF⟩ := pulseEncodes_of_inv hinv hpv
  obtain ⟨hfirst, -, -⟩ := read_pulse_header hF
  exact ⟨exec_prd_of_read (by decide) hpv hfirst, exec_prd_of_read (by decide) hpv (read_pulse_last hF)⟩

end Sys2Proof.Machine
end
